-- ==== Sys2Proof/Config.lean ====
section
/-! DEFINITION. The constants and parameters of the block: spec/00_scope.md R5 (constants the source fixes) and R6
(parameters the source leaves open). -/

namespace Sys2Proof

/-- The build parameter of R6 that changes behaviour: `CLR_PEND` (decision D7), fixed when the block is built, default
0. `State.cfg` carries it so that every claim about `exec` covers both values (notes/assumptions/2.md). -/
structure Config where
  /-- `CLR_PEND` = 1: `CLEAR`, and the clear inside a decoding `POLL`, also drop the pending-rise marker. -/
  clrPend : Bool
  deriving DecidableEq, Repr

namespace Config

/-- The defaults of R6. -/
def standard : Config := ⟨false⟩

/-- `TSW`, the width of a timestamp and of a duration. R6 lets a model restrict it to its default 32; this one does
(notes/assumptions/1.md). The decode arithmetic is stated for every width all the same (Machine/Classifier.lean). -/
abbrev tsw : Nat := 32

/-- `NSLOT`: durations per frame, and bits per frame (R5). -/
abbrev nslot : Nat := 40

/-- `NBYTE`: bytes per frame (R5). -/
abbrev nbyte : Nat := 5

/-- `BYTEW`: bits per byte, and the width of the checksum (R5). -/
abbrev bytew : Nat := 8

/-- `DEC_SCALE`: the decimal byte counts tenths (R5). -/
abbrev decScale : Nat := 10

/-- `CNTW`: width of `COUNT` (R6, fixed). -/
abbrev cntw : Nat := 6

/-- `X10W`: width of the two fixed-point outputs (R6, fixed). -/
abbrev x10w : Nat := 12

end Config

/-- The three host constants of R5, in microseconds: approximate in the source, so a host model takes them as arguments
with these defaults (spec/93_implementation_defined.md U8). No rule of the block reads them. -/
structure HostTimes where
  /-- `START_LOW_HOLD`, "~18 ms". -/
  startLowHold : Nat := 18000
  /-- `START_HIGH_HOLD`, "~40 µs". -/
  startHighHold : Nat := 40
  /-- `MIN_CYCLE_PERIOD`, "~2 seconds". -/
  minCyclePeriod : Nat := 2000000
  deriving DecidableEq, Repr

end Sys2Proof
end

