-- ==== Sys2Proof/Word.lean ====
section
/-! DEFINITION. The words of the block, all unsigned, bit 0 least significant (spec/00_scope.md R7). The widths are
those of `Config`; Laws/Config.lean says so. -/

namespace Sys2Proof

/-- A timestamp or a duration: `TSW` bits, unsigned (R6, R7). -/
abbrev Tick := BitVec 32

/-- A byte of the frame: 8 bits, unsigned (R30). -/
abbrev Byte := BitVec 8

/-- `COUNT`: 6 bits (R25). -/
abbrev CountWord := BitVec 6

/-- A reading in tenths: 12 bits, unsigned (R32). -/
abbrev Tenths := BitVec 12

/-- A command word: `TSW + 3` bits (R70). -/
abbrev CommandWord := BitVec 35

end Sys2Proof
end

