-- ==== Sys2Proof/Machine/Checksum.lean ====
section
/-! DEFINITION. The 8-bit checksum accumulator, stage CHECK of `POLL`, unit CHK (spec/43_checksum_validator.md). -/

namespace Sys2Proof.Machine

/-- `SUM`: the first four bytes, added modulo 256 (R135). -/
def checksum (bytes : Vector Byte 5) : Byte := bytes[0] + bytes[1] + bytes[2] + bytes[3]

/-- `CHECK(BYTE[0..4]) -> (SUM, VALID)` (R135). -/
def check (bytes : Vector Byte 5) : Byte × Bool := (checksum bytes, checksum bytes == bytes[4])

end Sys2Proof.Machine
end

