-- ==== Sys2Proof/Machine/Classifier.lean ====
section
/-! DEFINITION. The pulse-duration classifier, stage CLASSIFY of `POLL`, unit CLS (spec/41_bit_classifier.md). It is
written for every width `w` of a duration: the block uses `w = TSW`. -/

namespace Sys2Proof.Machine

/-- The lesser of two under unsigned order (R111). -/
def lesser {w : Nat} (m x : BitVec w) : BitVec w := if x.ult m then x else m

/-- The greater of two under unsigned order (R111). -/
def greater {w : Nat} (m x : BitVec w) : BitVec w := if m.ult x then x else m

/-- `min(s)` under unsigned order (R111). The empty sequence never occurs: `POLL` classifies exactly 40 (R116). -/
def shortest {w : Nat} : List (BitVec w) → BitVec w
  | [] => 0
  | d :: ds => ds.foldl lesser d

/-- `max(s)` under unsigned order (R111). -/
def longest {w : Nat} : List (BitVec w) → BitVec w
  | [] => 0
  | d :: ds => ds.foldl greater d

/-- `T2`, twice the threshold, in `TSW + 1` bits (R110). -/
def twiceThreshold {w : Nat} (dmin dmax : BitVec w) : BitVec (w + 1) := dmin.setWidth (w + 1) + dmax.setWidth (w + 1)

/-- The bit of duration `d`: `2·d >u T2` in `TSW + 1` bits (R112). -/
def classifyBit {w : Nat} (t2 : BitVec (w + 1)) (d : BitVec w) : Bool := t2.ult (2 * d.setWidth (w + 1))

/-- `CLASSIFY(d[0..39]) -> (DMIN, DMAX, BIT[0..39])` (R110). -/
def classify {w : Nat} (d : Vector (BitVec w) 40) : BitVec w × BitVec w × Vector Bool 40 :=
  let dmin := shortest d.toList
  let dmax := longest d.toList
  (dmin, dmax, Vector.ofFn fun k => classifyBit (twiceThreshold dmin dmax) d[k])

end Sys2Proof.Machine
end

