-- ==== Sys2Proof/Machine/Converter.lean ====
section
/-! DEFINITION. The fixed-point format converter, stage CONVERT of `POLL`, unit CNV (spec/44_reading_decoder.md). -/

namespace Sys2Proof.Machine

/-- `10 · zext_12(integer byte) + zext_12(decimal byte)` (R145). -/
def tenths (integer decimal : Byte) : Tenths :=
  BitVec.ofNat 12 Config.decScale * integer.setWidth 12 + decimal.setWidth 12

/-- `CONVERT(BYTE[0..4]) -> (HUM_X10, TEMP_X10)` (R145). -/
def convert (bytes : Vector Byte 5) : Tenths × Tenths := (tenths bytes[0] bytes[1], tenths bytes[2] bytes[3])

end Sys2Proof.Machine
end

