-- ==== Sys2Proof/Syntax.lean ====
section
/-! DEFINITION. The five commands (spec/30_encoding.md R72), the agents that issue them (spec/00_scope.md R11), the
shape of an opcode-table row, and the source lines of the command-stream syntax (R79, R80). -/

namespace Sys2Proof

/-- One constructor per row of the opcode table (R72). `NOP`, `CLEAR` and `POLL` have no operands: their `lvl` and `ts`
fields are ignored (R73). -/
inductive Instr where
  /-- `NOP` (R160). -/
  | nop
  /-- `EDGE.F ts`: falling edge at time `ts` (R91). -/
  | edgeF (ts : Tick)
  /-- `EDGE.R ts`: rising edge at time `ts` (R90). -/
  | edgeR (ts : Tick)
  /-- `CLEAR` (R161). -/
  | clear
  /-- `POLL` (R162). -/
  | poll
  deriving DecidableEq, Repr

/-- The two agents that issue commands (R11, R189). -/
inductive Agent where
  /-- The asynchronous edge-delivery context. -/
  | edge
  /-- The periodic polling context. -/
  | poll
  deriving DecidableEq, Repr

/-- The line level after a transition (R70, decision D3). -/
inductive Level where
  /-- LOW: a falling edge, `lvl = 0`. -/
  | low
  /-- HIGH: a rising edge, `lvl = 1`. -/
  | high
  deriving DecidableEq, Repr

namespace Instr

/-- The mnemonic column of R72. -/
def mnemonic : Instr → String
  | nop => "NOP"
  | edgeF _ => "EDGE.F"
  | edgeR _ => "EDGE.R"
  | clear => "CLEAR"
  | poll => "POLL"

/-- The agent column of R72. It is a convention of the host and no step checks it (R167, R188). -/
def agent : Instr → Agent
  | nop => .poll
  | edgeF _ => .edge
  | edgeR _ => .edge
  | clear => .poll
  | poll => .poll

end Instr

/-- A row of the opcode table of R72: a word `w` selects the row for which `(w AND mask) = pattern`. -/
structure OpcodeRow where
  mnemonic : String
  pattern  : CommandWord
  mask     : CommandWord
  deriving DecidableEq, Repr

/-- Why a bit pattern is no command word. The only reason there can be: no word of the port's width is illegal (R73). -/
inductive DecodeError where
  /-- The pattern does not fit in the `TSW + 3` bits of a command word (R70). -/
  | wordTooWide
  deriving DecidableEq, Repr

/-- Why a line of text is no line of the command-stream syntax (R79, R80). -/
inductive AsmError where
  /-- No such mnemonic, or its operands are not the numbers the syntax asks for. -/
  | badLine
  /-- An operand out of the range `SourceLine.wellFormed` gives it (R79; notes/assumptions/11.md). -/
  | operandOutOfRange
  deriving DecidableEq, Repr

/-- One line of a command stream in the syntax of R79, with the pseudo-instructions of R80. Operands are numbers as
written; `SourceLine.wellFormed` bounds them. -/
inductive SourceLine where
  | nop
  | edgeR (ts : Nat)
  | edgeF (ts : Nat)
  | clear
  | poll
  /-- `PULSE <t>, <w>`. -/
  | pulse (t w : Nat)
  /-- `FRAME <t0>, <ws>, <wl>, <gap>, <b0>, <b1>, <b2>, <b3>, <b4>`. -/
  | frame (t0 ws wl gap b0 b1 b2 b3 b4 : Nat)
  deriving DecidableEq, Repr

end Sys2Proof
end

