-- ==== Sys2Proof/WellFormed.lean ====
section
/-! DEFINITION. Which commands and which source lines are well formed. -/

namespace Sys2Proof

/-- Every command is legal: a timestamp is any `TSW`-bit number, and there is no reserved or illegal form (R73). -/
def Instr.wellFormed : Instr → Bool
  | .nop => true
  | .edgeF _ => true
  | .edgeR _ => true
  | .clear => true
  | .poll => true

/-- `<ts>` is "less than `2^TSW`" (R79). -/
def isTickNumber (n : Nat) : Bool := n < 2 ^ Config.tsw

/-- The data operands of `FRAME` are five bytes, the bound a DESIGN CHOICE (R80; notes/assumptions/11.md). -/
def isByteNumber (n : Nat) : Bool := n < 2 ^ Config.bytew

/-- The operand bounds: timestamps and widths are `TSW`-bit numbers (R7, R79), the data of `FRAME` are bytes. R80 gives
`<gap>` and the data operands no bound: rejecting a `<gap>` of `2^TSW` or more, or a data operand of 256 or more, is a
DESIGN CHOICE (notes/assumptions/11.md). -/
def SourceLine.wellFormed : SourceLine → Bool
  | .nop => true
  | .edgeR ts => isTickNumber ts
  | .edgeF ts => isTickNumber ts
  | .clear => true
  | .poll => true
  | .pulse t w => isTickNumber t && isTickNumber w
  | .frame t0 ws wl gap b0 b1 b2 b3 b4 =>
    [t0, ws, wl, gap].all isTickNumber && [b0, b1, b2, b3, b4].all isByteNumber

end Sys2Proof
end

