-- ==== Sys2Proof/Decode.lean ====
section
/-! DEFINITION. The command word: decoder, encoder and opcode table (spec/30_encoding.md R70 to R73). -/

namespace Sys2Proof

/-- Field `op`, bits `[1:0]` (R70). -/
def opField (w : CommandWord) : BitVec 2 := w.extractLsb' 0 2

/-- Field `lvl`, bit `[2]` (R70). -/
def lvlField (w : CommandWord) : BitVec 1 := w.extractLsb' 2 1

/-- Field `ts`, bits `[TSW+2:3]`, used exactly as it stands (R70, R71). -/
def tsField (w : CommandWord) : Tick := w.extractLsb' 3 32

/-- The source call `onEdge(level, timestamp)` as a command (R72, R196): HIGH is a rising edge, LOW a falling edge
(decision D3). -/
def onEdge (level : Level) (ts : Tick) : Instr :=
  match level with
  | .high => .edgeR ts
  | .low => .edgeF ts

/-- The line level a `lvl` bit stands for (R70). -/
def levelOfBit (b : BitVec 1) : Level := if b = 1#1 then .high else .low

/-- The decoder: it reads `op`, and for `op = 1` also `lvl` (R70). It is total: every word is a legal command (R73). -/
def decodeWord (w : CommandWord) : Instr :=
  if opField w = 0#2 then .nop
  else if opField w = 1#2 then onEdge (levelOfBit (lvlField w)) (tsField w)
  else if opField w = 2#2 then .clear
  else .poll

/-- Decoding of an arbitrary bit pattern: a pattern wider than the port is rejected by name. -/
def decodeBits (n : Nat) : Except DecodeError Instr :=
  if n < 2 ^ (Config.tsw + 3) then .ok (decodeWord (BitVec.ofNat 35 n)) else .error .wordTooWide

/-- The opcode table's word numbering is the command word's own: bit 0 least significant. Bits at and above `nbits`
are 0. -/
def decodeTableWord (nbits w : Nat) : Option Instr :=
  match decodeBits (w % 2 ^ nbits) with
  | .ok i => some i
  | .error _ => none

/-- `| ts (TSW bits) | lvl | op[1] op[0] |` (R70). -/
def commandWord (ts : Tick) (lvl : BitVec 1) (op : BitVec 2) : CommandWord := ts ++ lvl ++ op

/-- The encoder: `ts·8 + lvl·4 + op`, with `ts = 0` and `lvl = 0` for the commands without operands (R73, R79). -/
def encode : Instr → CommandWord
  | .nop => commandWord 0 0 0
  | .edgeF ts => commandWord ts 0 1
  | .edgeR ts => commandWord ts 1 1
  | .clear => commandWord 0 0 2
  | .poll => commandWord 0 0 3

/-- The opcode table of R72. -/
def opcodeTable : List OpcodeRow :=
  [ ⟨"NOP",    0, 3⟩,
    ⟨"EDGE.F", 1, 7⟩,
    ⟨"EDGE.R", 5, 7⟩,
    ⟨"CLEAR",  2, 3⟩,
    ⟨"POLL",   3, 3⟩ ]

/-- A row matches a word when `(w AND mask) = match` (R72). -/
def OpcodeRow.matches (r : OpcodeRow) (w : CommandWord) : Bool := w &&& r.mask == r.pattern

/-- The canonical word of a command word: `lvl` and `ts` zero where they are ignored (R73). -/
def canonicalWord (w : CommandWord) : CommandWord := if opField w = 1#2 then w else w &&& 3

end Sys2Proof
end

