-- ==== Sys2Proof/Machine/Flags.lean ====
section
/-! DEFINITION. `COUNT` and the two flags that are pure functions of it (spec/10_state.md R25, R26). -/

namespace Sys2Proof.Machine

/-- The one count that is ever decoded: `NSLOT` (R26). -/
def fullCount : CountWord := BitVec.ofNat 6 Config.nslot

/-- The saturated count, "more than 40" (R25). -/
def overCount : CountWord := BitVec.ofNat 6 (Config.nslot + 1)

/-- `COUNT < 40`: the buffer has room for another duration (R91). -/
def hasRoom (count : CountWord) : Bool := count.toNat < Config.nslot

/-- `FRAME_READY = (COUNT = 40)` (R26). -/
def frameReady (count : CountWord) : Bool := count == fullCount

/-- `OVF = (COUNT = 41)` (R26). -/
def overflowed (count : CountWord) : Bool := count == overCount

/-- `COUNT` after a pulse is closed: one more, saturating at 41 (R25, R91). -/
def countPulse (count : CountWord) : CountWord := if hasRoom count then count + 1 else overCount

end Sys2Proof.Machine
end

