-- ==== Sys2Proof/Machine/Operands.lean ====
section
/-! DEFINITION. Operand arithmetic. The only operand of the command set is the timestamp `ts` of `EDGE`, which the
decoder passes on exactly as it stands (spec/30_encoding.md R71); what is computed from it is the pulse length. -/

namespace Sys2Proof.Machine

/-- `(ts − PRISE) mod 2^TSW`, unsigned (R92). -/
def pulseLength {w : Nat} (ts prise : BitVec w) : BitVec w := ts - prise

end Sys2Proof.Machine
end

