-- ==== Sys2Proof/Machine/State.lean ====
section
/-! DEFINITION. The state of the block: the registers of spec/10_state.md R20, and three fields of the model's own (the
response output, the inputs still to come, the build parameter). Reset values: R40. -/

namespace Sys2Proof.Machine

/-- The 2-bit response `RSP` of a command (R75). -/
inductive Response where
  /-- `NONE`: nothing to report. -/
  | nothing
  /-- `NOT_READY`: a `POLL` that found `COUNT ≠ 40`. -/
  | notReady
  /-- `OK`: decoded, checksum good. -/
  | ok
  /-- `CSUM_ERR`: decoded, checksum bad. -/
  | csumErr
  deriving DecidableEq, Repr

/-- What the outside world presents to the block at one step boundary: a command word on the command port (R70), or the
reset input (R210, R211). -/
inductive Input where
  | command (w : CommandWord)
  | reset
  deriving DecidableEq, Repr

/-- The duration buffer `DUR`, entries of `TSW` bits by entry index (R50): (index, entry) pairs in the one canonical
form of `Memory.wf`. `Host.Cell` does not fit: the entry is the smallest addressable unit and there is no byte address
(R50, R57). -/
abbrev Memory := List (Nat × Tick)

/-- The result registers, written all together by a decoding `POLL` (R27). -/
structure ResultRegs where
  /-- `DMIN`: shortest duration of the last decoded frame (R28). -/
  dmin : Tick
  /-- `DMAX`: longest duration of the last decoded frame (R28). -/
  dmax : Tick
  /-- `BIT[0..39]`, in order of reception (R29). -/
  bits : Vector Bool 40
  /-- `BYTE[0..4]` (R30). -/
  bytes : Vector Byte 5
  /-- `SUM` (R31). -/
  sum : Byte
  /-- `VALID` (R31). -/
  valid : Bool
  /-- `HUM_X10` (R32). -/
  humX10 : Tenths
  /-- `TEMP_X10` (R32). -/
  tempX10 : Tenths
  deriving DecidableEq, Repr

/-- The registers of R20 (`pend` to `result`), then the model's own fields. -/
structure State where
  /-- `PEND`: a rising edge is waiting for its falling edge (R22). -/
  pend : Bool
  /-- `PRISE`: timestamp of the pending rising edge (R23). -/
  prise : Tick
  /-- `DUR[0..39]` (R24). -/
  dur : Memory
  /-- `COUNT`: durations since the last clear, 41 meaning "more than 40" (R25). -/
  count : CountWord
  /-- `RVALID`: the result registers hold the outcome of a decode (R27). -/
  rvalid : Bool
  /-- The result registers (R27 to R32). -/
  result : ResultRegs
  /-- `RSP` of the last command or idle step (R75, R195); `none` until there has been one. Output, not a register of R20
  (notes/assumptions/6.md). -/
  rsp : Option Response
  /-- The merged stream of the two agents and the reset input, oldest first (R10, R185). Input, not a register. -/
  port : List Input
  /-- The parameter `CLR_PEND` (R6). Fixed: no command and no reset changes it. -/
  cfg : Config
  deriving DecidableEq, Repr

/-- Why the machine stops with a fault. There is no constructor: "There is no fault, no stuck state, no trap and no
abort anywhere in the block" (R180), so nothing raises one (safe: a claim needs no case for it). -/
inductive Fault where
  deriving DecidableEq, Repr

/-- Why an instruction is refused. -/
inductive Refusal where
  /-- Raised by an arm of `exec` for a table row that has no meaning yet; no arm does (safe). -/
  | notModelled (mnemonic : String)
  deriving DecidableEq, Repr

/-- The result registers at reset: unspecified and without a value while `RVALID = 0` (R40). Zero, a DESIGN CHOICE
(notes/assumptions/3.md). -/
def ResultRegs.reset : ResultRegs where
  dmin := 0
  dmax := 0
  bits := Vector.replicate 40 false
  bytes := Vector.replicate 5 0
  sum := 0
  valid := false
  humX10 := 0
  tempX10 := 0

/-- The state after reset (R40, R210): `PEND`, `COUNT` and `RVALID` are 0. `PRISE`, `DUR` and the result registers are
unspecified there and zero here, a DESIGN CHOICE (notes/assumptions/3.md). No command has arrived. -/
def State.reset : State where
  pend := false
  prise := 0
  dur := []
  count := 0
  rvalid := false
  result := ResultRegs.reset
  rsp := none
  port := []
  cfg := Config.standard

end Sys2Proof.Machine
end

