-- ==== Sys2Proof/Machine/Ops.lean ====
section
/-! DEFINITION. The named operations over the duration buffer and the registers. There is no operation that takes an
exception and none that returns from one: the block has no trap (spec/60_exceptions.md R180, R184). -/

namespace Sys2Proof.Machine

/-- What an entry that is not listed reads as. No rule reads such an entry (R51); the value is a DESIGN CHOICE
(notes/assumptions/3.md). -/
def Memory.unlisted : Tick := 0

/-- One entry of the buffer. -/
def Memory.read : Memory → Nat → Tick
  | [], _ => Memory.unlisted
  | (a, v) :: m, k => if a = k then v else Memory.read m k

/-- Put an entry in front, unless it is what an unlisted one reads as. -/
def Memory.cons (k : Nat) (v : Tick) (m : Memory) : Memory := if v = Memory.unlisted then m else (k, v) :: m

/-- Set one entry, keeping the canonical form. -/
def Memory.write : Memory → Nat → Tick → Memory
  | [], k, v => Memory.cons k v []
  | (a, x) :: m, k, v =>
    if k < a then Memory.cons k v ((a, x) :: m)
    else if k = a then Memory.cons k v m
    else (a, x) :: Memory.write m k v

/-- Canonical from index `lo` on: indices strictly rising and below `NSLOT`, no entry that an unlisted one equals. -/
def Memory.wfFrom : Nat → Memory → Bool
  | _, [] => true
  | lo, (a, v) :: m => lo ≤ a && a < Config.nslot && v != Memory.unlisted && Memory.wfFrom (a + 1) m

/-- The canonical form of the buffer. -/
def Memory.wf (m : Memory) : Bool := Memory.wfFrom 0 m

/-- `MemRead(k, 1)` (R51). -/
def memRead (k : Nat) (s : State) : Tick := s.dur.read k

/-- `MemWrite(k, 1, v)` (R51). -/
def memWrite (k : Nat) (v : Tick) (s : State) : State := { s with dur := s.dur.write k v }

/-- The response of the command being executed (R75). -/
def respond (r : Response) (s : State) : State := { s with rsp := some r }

/-- The block is given nothing: it gives back `RSP = NONE` (R195, row "idle"). -/
def idle (s : State) : State := respond .nothing s

/-- Store the timestamp of a rising edge as "pending rise" (R90). -/
def setPendingRise (ts : Tick) (s : State) : State := { s with pend := true, prise := ts }

/-- Clear the pending-rise marker; `PRISE` keeps its bits (R91). -/
def dropPendingRise (s : State) : State := { s with pend := false }

/-- Append a duration at index `COUNT`, or count it into the overflow and drop it (R53, R91). -/
def appendDuration (d : Tick) (s : State) : State :=
  if hasRoom s.count then { memWrite s.count.toNat d s with count := countPulse s.count }
  else { s with count := countPulse s.count }

/-- Clear the live sequence; drop the pending rise only if `CLR_PEND = 1`; `DUR` keeps its bits (R161, R162 step 7). -/
def clearLive (s : State) : State := { s with count := 0, pend := s.pend && !s.cfg.clrPend }

/-- `SNAP[k] <- MemRead(k, 1)` for `k` = 0 to 39 (R54). -/
def snapshot (s : State) : Vector Tick 40 := Vector.ofFn fun k => memRead k.val s

/-- Write all result registers and set `RVALID` (R27, R162 steps 2 to 6). -/
def writeResult (r : ResultRegs) (s : State) : State := { s with rvalid := true, result := r }

/-- Take the next input from the port: the next-command fetch (R10). -/
def takeInput (s : State) : Option (Input × State) :=
  match s.port with
  | [] => none
  | x :: rest => some (x, { s with port := rest })

/-- The reset input (R210, R211): every register at its reset value, nothing survives. The inputs still to come and the
build parameter are not the block's state. -/
def applyReset (s : State) : State := { State.reset with port := s.port, cfg := s.cfg }

/-- Present a command word to the port as the next input. -/
def presentWord (w : CommandWord) (s : State) : State := { s with port := .command w :: s.port }

end Sys2Proof.Machine
end

