-- ==== Sys2Proof/Machine/Packer.lean ====
section
/-! DEFINITION. The bit-to-byte shift register, stage PACK of `POLL`, unit PCK (spec/42_byte_packer.md). -/

namespace Sys2Proof.Machine

/-- `SR <- ((SR << 1) | bit) mod 256` (R125). -/
def shiftIn (sr : Byte) (bit : Bool) : Byte := (sr <<< 1) ||| (BitVec.ofBool bit).setWidth 8

/-- Group `g` of 8 consecutive bits, left to right (R125). -/
def bitGroup (bits : Vector Bool 40) (g : Fin 5) : List Bool :=
  List.ofFn fun j : Fin 8 => bits[8 * g.val + j.val]

/-- `BYTE[g]`: the group shifted in from 0, left to right (R125). -/
def packByte (group : List Bool) : Byte := group.foldl shiftIn 0

/-- `PACK(BIT[0..39]) -> BYTE[0..4]` (R125). -/
def pack (bits : Vector Bool 40) : Vector Byte 5 := Vector.ofFn fun g => packByte (bitGroup bits g)

end Sys2Proof.Machine
end

