-- ==== Sys2Proof/Machine/Control.lean ====
section
/-! DEFINITION. The control commands of the poll agent (spec/45_control.md). -/

namespace Sys2Proof.Machine

/-- Steps 2 to 5 of a decoding `POLL`: the four stages in order, a pure function of the 40 durations (R162, R163). -/
def decodeFrame (snap : Vector Tick 40) : ResultRegs :=
  let (dmin, dmax, bits) := classify snap
  let bytes := pack bits
  let (sum, valid) := check bytes
  let (hum, temp) := convert bytes
  { dmin := dmin, dmax := dmax, bits := bits, bytes := bytes, sum := sum, valid := valid, humX10 := hum, tempX10 := temp }

/-- Step 8 of a decoding `POLL`: `OK` if `VALID = 1`, else `CSUM_ERR` (R162). -/
def decodeResponse (r : ResultRegs) : Response := if r.valid then .ok else .csumErr

/-- The effect of a decoding `POLL`: one atomic step (R162). -/
def decodePoll (s : State) : State :=
  let r := decodeFrame (snapshot s)
  respond (decodeResponse r) (clearLive (writeResult r s))

/-- `NOP` (R160). -/
def execNop (s : State) : Host.Outcome State Fault Refusal := .next (respond .nothing s)

/-- `CLEAR` (R161). -/
def execClear (s : State) : Host.Outcome State Fault Refusal := .next (respond .nothing (clearLive s))

/-- `POLL` (R162): decodes at `COUNT = 40` exactly; at any other count nothing changes. -/
def execPoll (s : State) : Host.Outcome State Fault Refusal :=
  if frameReady s.count then .next (decodePoll s) else .next (respond .notReady s)

end Sys2Proof.Machine
end

