-- ==== Sys2Proof/Machine/EdgeRecorder.lean ====
section
/-! DEFINITION. The edge commands, unit REC (spec/40_edge_recorder.md). -/

namespace Sys2Proof.Machine

/-- Close the pending pulse at time `ts`: append its length and clear the marker (R91). -/
def closePulse (ts : Tick) (s : State) : State :=
  dropPendingRise (appendDuration (pulseLength ts s.prise) s)

/-- `EDGE.R ts` (R90): unconditional, whatever `PEND` and `COUNT` are. -/
def execEdgeR (ts : Tick) (s : State) : Host.Outcome State Fault Refusal :=
  .next (respond .nothing (setPendingRise ts s))

/-- `EDGE.F ts` (R91): a falling edge with no pending rise is silently ignored. -/
def execEdgeF (ts : Tick) (s : State) : Host.Outcome State Fault Refusal :=
  if s.pend then .next (respond .nothing (closePulse ts s)) else .next (respond .nothing s)

end Sys2Proof.Machine
end

