-- ==== Sys2Proof/Machine/Dispatch.lean ====
section
/-! DEFINITION. One arm per command (spec/30_encoding.md R72). -/

namespace Sys2Proof.Machine

def exec (i : Instr) (s : State) : Host.Outcome State Fault Refusal :=
  match i with
  | .nop => Sys2Proof.Machine.execNop s
  | .edgeF ts => Sys2Proof.Machine.execEdgeF ts s
  | .edgeR ts => Sys2Proof.Machine.execEdgeR ts s
  | .clear => Sys2Proof.Machine.execClear s
  | .poll => Sys2Proof.Machine.execPoll s

end Sys2Proof.Machine
end

