-- ==== Sys2Proof/Machine/Step.lean ====
section
/-! DEFINITION. One step: the whole effect of the next input (spec/00_scope.md R10). -/

namespace Sys2Proof.Machine

/-- A step takes the next input. A command is decoded and executed; the reset input resets the block; with no
input the block is idle (notes/assumptions/4.md, notes/assumptions/5.md). -/
def step (s : State) : Host.Outcome State Fault Refusal :=
  match takeInput s with
  | none => .next (idle s)
  | some (.command w, t) => exec (decodeWord w) t
  | some (.reset, t) => .next (applyReset t)

/-- `s` with the command word `w` (its bits at and above `nbits` zero) on the command port as the next input. -/
def State.withFetchWord (s : State) (nbits w : Nat) : State :=
  presentWord (BitVec.ofNat 35 (w % 2 ^ nbits)) s

end Sys2Proof.Machine
end

