-- ==== Sys2Proof/Machine/Outputs.lean ====
section
/-! DEFINITION. The outputs of the block: combinational views of the registers, without side effect
(spec/30_encoding.md R75 to R78). -/

namespace Sys2Proof.Machine

/-- The `RSP` codes (R75). -/
def Response.code : Response → BitVec 2
  | .nothing => 0
  | .notReady => 1
  | .ok => 2
  | .csumErr => 3

/-- `STATUS`: `PEND` in bit 8, `OVF` in bit 7, `FRAME_READY` in bit 6, `COUNT` in bits 5 to 0 (R76). -/
def status (s : State) : BitVec 9 :=
  BitVec.ofBool s.pend ++ BitVec.ofBool (overflowed s.count) ++ BitVec.ofBool (frameReady s.count) ++ s.count

/-- `FRAME40 = BIT[0] ‖ BIT[1] ‖ … ‖ BIT[39]`, so `BIT[0]` is bit 39 (R29). -/
def frame40 (bits : Vector Bool 40) : BitVec 40 :=
  BitVec.ofNat 40 (bits.toList.foldl (fun n b => 2 * n + b.toNat) 0)

/-- The result outputs: they hold no value while `RVALID = 0` (R27, R77; spec/93_implementation_defined.md U3). -/
def resultOutputs (s : State) : Option ResultRegs := if s.rvalid then some s.result else none

/-- `READING[31:25]`, defined at all times: six zeros, then `RVALID` (R78). -/
def readingHigh (s : State) : BitVec 7 := 0#6 ++ BitVec.ofBool s.rvalid

/-- `READING[24:0]`: `VALID`, `TEMP_X10`, `HUM_X10`; no value while `RVALID = 0` (R78). -/
def readingLow (s : State) : Option (BitVec 25) :=
  (resultOutputs s).map fun r => BitVec.ofBool r.valid ++ r.tempX10 ++ r.humX10

/-- The whole `READING` word (R78). -/
def reading (s : State) : Option (BitVec 32) := (readingLow s).map fun low => readingHigh s ++ low

/-- The live duration sequence `DUR[0 .. min(COUNT,40)-1]`, oldest first (R20, R24). No agent can read it (R50); claims
are stated with it. -/
def liveDurations (s : State) : List Tick :=
  (List.range (min s.count.toNat Config.nslot)).map fun k => memRead k s

end Sys2Proof.Machine
end

