-- ==== Sys2Proof/Machine/Abstract.lean ====
section
/-! DEFINITION. The abstract form of the same state and the commands read against it (spec/10_state.md R21). It has no
place for what no rule reads: `PRISE` without a pending rise, `DUR` at or beyond `COUNT`, results before a decode
(spec/93_implementation_defined.md U3, U4). -/

namespace Sys2Proof.Machine

/-- The record of R21. -/
structure AbsState where
  /-- `none | some ts`: the pending rising edge. -/
  pending : Option Tick
  /-- The live durations, at most 40. -/
  durs : List Tick
  /-- True only when 40 durations are held and more have arrived. -/
  ovf : Bool
  /-- The last decode, if there has been one since reset. -/
  result : Option ResultRegs
  deriving DecidableEq, Repr

/-- The abstract state after reset (R210). -/
def AbsState.initial : AbsState := ⟨none, [], false, none⟩

/-- The correspondence of R21 between registers and the abstract record. -/
def State.abstract (s : State) : AbsState where
  pending := if s.pend then some s.prise else none
  durs := liveDurations s
  ovf := overflowed s.count
  result := resultOutputs s

/-- Append a duration, or count it into the overflow (R91). -/
def absAppend (d : Tick) (a : AbsState) : AbsState :=
  if a.durs.length < Config.nslot then { a with durs := a.durs ++ [d] } else { a with ovf := true }

/-- Empty the live sequence; with `CLR_PEND` also the marker (R161). -/
def absClear (clrPend : Bool) (a : AbsState) : AbsState :=
  { a with durs := [], ovf := false, pending := if clrPend then none else a.pending }

/-- `POLL` (R162). -/
def absPoll (clrPend : Bool) (a : AbsState) : AbsState × Response :=
  if h : a.durs.length = 40 then
    if a.ovf then (a, .notReady)
    else
      let r := decodeFrame ⟨a.durs.toArray, by simp [h]⟩
      ({ absClear clrPend a with result := some r }, decodeResponse r)
  else (a, .notReady)

/-- The five commands on the abstract record: the next record and the response. -/
def absExec (clrPend : Bool) (i : Instr) (a : AbsState) : AbsState × Response :=
  match i with
  | .nop => (a, .nothing)
  | .edgeR ts => ({ a with pending := some ts }, .nothing)
  | .edgeF ts =>
    match a.pending with
    | none => (a, .nothing)
    | some rise => ({ absAppend (pulseLength ts rise) a with pending := none }, .nothing)
  | .clear => (absClear clrPend a, .nothing)
  | .poll => absPoll clrPend a

end Sys2Proof.Machine
end

