-- ==== Sys2Proof/Machine/Assembler.lean ====
section
/-! DEFINITION. The command-stream syntax and its pseudo-instructions (spec/30_encoding.md R79, R80). Not hardware: the
notation in which streams of commands are written. -/

namespace Sys2Proof.Machine

/-- `PULSE t, w`: one high pulse that starts at `t` and lasts `w`, modulo `2^TSW` (R80). -/
def pulse (t w : Tick) : List Instr := [.edgeR t, .edgeF (t + w)]

/-- Pulses of the given widths, `gap` apart, the first at `t` (the loop of `FRAME`, R80). -/
def pulseTrain (gap : Tick) : Tick → List Tick → List Instr
  | _, [] => []
  | t, w :: ws => pulse t w ++ pulseTrain gap (t + w + gap) ws

/-- `bit <- b[k div 8][7 - (k mod 8)]`: the 40 bits of five bytes, most significant bit of `b0` first (R80). -/
def frameBits (b : Vector Byte 5) : Vector Bool 40 :=
  Vector.ofFn fun k => b[k.val / 8].getLsbD (7 - k.val % 8)

/-- The 40 widths of a frame: `wl` for a 1, `ws` for a 0 (R80). -/
def frameWidths (ws wl : Tick) (b : Vector Byte 5) : Vector Tick 40 :=
  Vector.ofFn fun k => if (frameBits b)[k] then wl else ws

/-- `FRAME t0, ws, wl, gap, b0, b1, b2, b3, b4`: 40 pulses, 80 commands (R80). -/
def frame (t0 ws wl gap : Tick) (b : Vector Byte 5) : List Instr := pulseTrain gap t0 (frameWidths ws wl b).toList

/-- The commands of a source line, operands taken modulo their widths (`SourceLine.wellFormed` bounds them). -/
def expand : SourceLine → List Instr
  | .nop => [.nop]
  | .edgeR ts => [.edgeR (BitVec.ofNat 32 ts)]
  | .edgeF ts => [.edgeF (BitVec.ofNat 32 ts)]
  | .clear => [.clear]
  | .poll => [.poll]
  | .pulse t w => pulse (BitVec.ofNat 32 t) (BitVec.ofNat 32 w)
  | .frame t0 ws wl gap b0 b1 b2 b3 b4 =>
    frame (BitVec.ofNat 32 t0) (BitVec.ofNat 32 ws) (BitVec.ofNat 32 wl) (BitVec.ofNat 32 gap)
      #v[BitVec.ofNat 8 b0, BitVec.ofNat 8 b1, BitVec.ofNat 8 b2, BitVec.ofNat 8 b3, BitVec.ofNat 8 b4]

/-- The value of a hexadecimal digit. -/
def hexDigit (c : Char) : Option Nat :=
  if c.isDigit then some (c.toNat - '0'.toNat)
  else if 'a' ≤ c ∧ c ≤ 'f' then some (c.toNat - 'a'.toNat + 10)
  else if 'A' ≤ c ∧ c ≤ 'F' then some (c.toNat - 'A'.toNat + 10)
  else none

/-- Hexadecimal digits, most significant first, after the value `n`. -/
def hexNumber : Nat → List Char → Option Nat
  | n, [] => some n
  | n, c :: cs => (hexDigit c).bind fun d => hexNumber (16 * n + d) cs

/-- "an unsigned number in decimal or `0x` hexadecimal" (R79). -/
def parseNumber : List Char → Option Nat
  | [] => none
  | '0' :: 'x' :: c :: cs => hexNumber 0 (c :: cs)
  | c :: cs => if (c :: cs).all Char.isDigit then some (Nat.ofDigitChars 10 (c :: cs) 0) else none

/-- Without the white space at either end. -/
def trim (cs : List Char) : List Char :=
  ((cs.dropWhile Char.isWhitespace).reverse.dropWhile Char.isWhitespace).reverse

/-- All of the operands as numbers, or none. -/
def parseOperands : List (List Char) → Option (List Nat)
  | [] => some []
  | cs :: rest => (parseNumber (trim cs)).bind fun n => (parseOperands rest).map (n :: ·)

/-- A mnemonic with its operands, as R79 and R80 write them. -/
def sourceLine (mnemonic : List Char) (operands : List Nat) : Option SourceLine :=
  if mnemonic = "NOP".toList then match operands with | [] => some .nop | _ => none
  else if mnemonic = "EDGE.R".toList then match operands with | [ts] => some (.edgeR ts) | _ => none
  else if mnemonic = "EDGE.F".toList then match operands with | [ts] => some (.edgeF ts) | _ => none
  else if mnemonic = "CLEAR".toList then match operands with | [] => some .clear | _ => none
  else if mnemonic = "POLL".toList then match operands with | [] => some .poll | _ => none
  else if mnemonic = "PULSE".toList then match operands with | [t, w] => some (.pulse t w) | _ => none
  else if mnemonic = "FRAME".toList then
    match operands with
    | [t0, ws, wl, gap, b0, b1, b2, b3, b4] => some (.frame t0 ws wl gap b0 b1 b2 b3 b4)
    | _ => none
  else none

/-- One line of text: text after `;` is a comment, and a line with nothing else is no command (R79). -/
def parseLine (line : List Char) : Except AsmError (List SourceLine) :=
  let text := trim (line.takeWhile (· != ';'))
  if text = [] then .ok []
  else
    let mnemonic := text.takeWhile (!·.isWhitespace)
    let rest := trim (text.dropWhile (!·.isWhitespace))
    let operands := if rest = [] then some [] else parseOperands (rest.splitOn ',')
    match operands.bind (sourceLine mnemonic) with
    | some l => .ok [l]
    | none => .error .badLine

/-- The commands one line of text stands for; an operand out of range is rejected by name. -/
def assembleLine (line : List Char) : Except AsmError (List Instr) :=
  match parseLine line with
  | .error e => .error e
  | .ok ls => if ls.all SourceLine.wellFormed then .ok (ls.flatMap expand) else .error .operandOutOfRange

/-- A command as a line of text, its timestamp in decimal (R79). -/
def listing : Instr → List Char
  | .nop => "NOP".toList
  | .edgeF ts => "EDGE.F ".toList ++ Nat.toDigits 10 ts.toNat
  | .edgeR ts => "EDGE.R ".toList ++ Nat.toDigits 10 ts.toNat
  | .clear => "CLEAR".toList
  | .poll => "POLL".toList

end Sys2Proof.Machine
end

