-- ==== Sys2Proof/Machine/Sequencer.lean ====
section
/-! DEFINITION. The host around the block: the Acquisition Sequencer (spec/60_exceptions.md R190 to R194), the calls of
the GPIO backend (R196) and the order of boot and cycle (spec/70_reset_and_hazards.md R212). spec/00_scope.md R4 leaves
it outside the block, so none of this is in `State`. What the rules leave open here is a DESIGN CHOICE
(notes/assumptions/12.md). -/

namespace Sys2Proof.Machine

/-- The four states of the sequencer; its IDLE is not the recorder's REC_IDLE (R190). -/
inductive Phase where
  | idle
  | awaitingStart
  | collecting
  | complete
  deriving DecidableEq, Repr

/-- How far the boot order of R212 has come. -/
inductive Session where
  /-- Not booted yet. -/
  | off
  /-- The backend is connected and the edge callback registered. -/
  | running
  /-- Error kind (a): the connection failed, "fatal at startup". -/
  | aborted
  deriving DecidableEq, Repr

/-- The host: its session, its phase, and when the last cycle was started, in microseconds. -/
structure HostState where
  session : Session
  phase : Phase
  lastStart : Option Nat
  deriving DecidableEq, Repr

/-- The host before it boots. -/
def HostState.initial : HostState := ⟨.off, .idle, none⟩

/-- The direction of the line (R196). -/
inductive LineMode where
  | output
  | input
  deriving DecidableEq, Repr

/-- The three calls of the backend (R196), and the sequencer's sleeps (R191). -/
inductive BackendCall where
  | setLineMode (m : LineMode)
  | writeLine (l : Level)
  /-- For both edges of the data pin (R212 step 3). -/
  | registerEdgeCallback
  /-- One of "the two fixed-duration sleeps", in microseconds. -/
  | hold (micros : Nat)
  deriving DecidableEq, Repr

/-- What the host does, in order. -/
inductive HostAction where
  /-- The reset input of the block (R212 step 1). -/
  | resetBlock
  /-- Connect to the backend (R212 step 2). -/
  | connect
  | call (c : BackendCall)
  /-- Send a command to the block. -/
  | send (i : Instr)
  deriving DecidableEq, Repr

/-- What moves the host. -/
inductive HostEvent where
  /-- The host starts up, and the backend can or cannot be reached. -/
  | boot (connected : Bool)
  /-- A cycle is to be started, or the start pulse reissued, at the time `now` in microseconds. -/
  | start (now : Nat)
  /-- The line has been released to input. -/
  | released
  /-- The edge callback: a transition of the line (R196). -/
  | transition (level : Level) (ts : Tick)
  /-- The polling timer. -/
  | timer
  /-- A `POLL` has been answered. -/
  | answered (r : Response)
  /-- The reading has been taken. R193 names no event for the return to IDLE: a DESIGN CHOICE
  (notes/assumptions/12.md). -/
  | taken
  deriving DecidableEq, Repr

/-- What the block meets of an action: the reset input, or a command word on the port. -/
def HostAction.input : HostAction → Option Input
  | .resetBlock => some .reset
  | .connect => none
  | .call _ => none
  | .send i => some (.command (encode i))

/-- The inputs of the block that a list of actions stands for, in order. -/
def inputsOf (actions : List HostAction) : List Input := actions.filterMap HostAction.input

/-- The start pulse (R191). -/
def startPulse (h : HostTimes) : List BackendCall :=
  [ .setLineMode .output, .writeLine .low, .hold h.startLowHold, .writeLine .high, .hold h.startHighHold,
    .setLineMode .input ]

/-- Steps 1 to 3 of R212: reset the block, connect, register the edge callback; if the connection fails the host goes no
further. -/
def bootActions (connected : Bool) : List HostAction :=
  [.resetBlock, .connect] ++ if connected then [.call .registerEdgeCallback] else []

/-- A response that says a decode was done (R75, R224). -/
def Response.decoded : Response → Bool
  | .nothing => false
  | .notReady => false
  | .ok => true
  | .csumErr => true

/-- The cadence of R194 and R212 step 4: `MIN_CYCLE_PERIOD` has passed since the start of the previous cycle, if there has
been one. A duty towards the sensor; the block behaves the same at any cadence (R222). -/
def cadenceKept (h : HostTimes) (now : Nat) : Option Nat → Bool
  | none => true
  | some t => t + h.minCyclePeriod ≤ now

/-- The beginning of step 4 of R212: `CLEAR`, then the start pulse, which ends by releasing the line; not before the cadence
allows it. -/
def startCycle (h : HostTimes) (now : Nat) (s : HostState) : HostState × List HostAction :=
  if cadenceKept h now s.lastStart then
    ({ s with phase := .awaitingStart, lastStart := some now }, .send .clear :: (startPulse h).map .call)
  else (s, [])

/-- The transitions of R191 to R194, the edge callback (R196) and the polling timer (R193) of a booted host. An unfinished
cycle is abandoned when the start pulse is reissued (R194). `CLEAR` is sent before the start pulse (R212) and again on the
transition to COLLECTING (R164, R192). COMPLETE waits for `taken`, and an event without a transition in its phase (`start`
in COMPLETE among them) changes nothing: DESIGN CHOICE (notes/assumptions/12.md). -/
def advanceRunning (h : HostTimes) (s : HostState) (e : HostEvent) : HostState × List HostAction :=
  match e, s.phase with
  | .transition level ts, _ => (s, [.send (onEdge level ts)])
  | .start now, .idle => startCycle h now s
  | .start now, .collecting => startCycle h now s
  | .released, .awaitingStart => ({ s with phase := .collecting }, [.send .clear])
  | .timer, .collecting => (s, [.send .poll])
  | .answered r, .collecting => ({ s with phase := if r.decoded then .complete else .collecting }, [])
  | .taken, .complete => ({ s with phase := .idle }, [])
  | _, _ => (s, [])

/-- What an event makes the host do. Before boot, and after a failed connection, "no command may be sent" (R212 step 2,
R181 (a)). -/
def advance (h : HostTimes) (s : HostState) (e : HostEvent) : HostState × List HostAction :=
  match s.session with
  | .off =>
    match e with
    | .boot connected => ({ s with session := if connected then .running else .aborted }, bootActions connected)
    | _ => (s, [])
  | .running => advanceRunning h s e
  | .aborted => (s, [])

/-- A run of the host: the events one after another, and all actions in order. -/
def runHost (h : HostTimes) : HostState → List HostEvent → HostState × List HostAction
  | s, [] => (s, [])
  | s, e :: es =>
    let (t, actions) := advance h s e
    let (u, later) := runHost h t es
    (u, actions ++ later)

end Sys2Proof.Machine
end

