-- ==== Sys2Proof/Safety.lean ====
section
/-! DEFINITION. The terms claims are stated in: the invariants of spec/10_state.md R36, runs, the interleaving of two
streams, and what can be observed. -/

namespace Sys2Proof.Machine

/-- R36 (c) for one frame: what the result registers `r` hold when `d` is the snapshot they were decoded from, in exact
arithmetic. -/
structure DecodesTo (d : Vector Tick 40) (r : ResultRegs) : Prop where
  dmin_le : ∀ k : Fin 40, r.dmin.toNat ≤ d[k].toNat
  dmin_mem : ∃ k : Fin 40, d[k] = r.dmin
  le_dmax : ∀ k : Fin 40, d[k].toNat ≤ r.dmax.toNat
  dmax_mem : ∃ k : Fin 40, d[k] = r.dmax
  bit : ∀ k : Fin 40, r.bits[k] = decide (r.dmin.toNat + r.dmax.toNat < 2 * d[k].toNat)
  byte : ∀ g : Fin 5, r.bytes[g].toNat = ∑ j : Fin 8, r.bits[8 * g.val + j.val].toNat * 2 ^ (7 - j.val)
  sum : r.sum.toNat = (r.bytes[0].toNat + r.bytes[1].toNat + r.bytes[2].toNat + r.bytes[3].toNat) % 256
  valid : r.valid = decide (r.sum = r.bytes[4])
  hum : r.humX10.toNat = 10 * r.bytes[0].toNat + r.bytes[1].toNat
  temp : r.tempX10.toNat = 10 * r.bytes[2].toNat + r.bytes[3].toNat

/-- The invariants: `COUNT` has a legal value (R36 (a)), the buffer is in canonical form with all indices below 40, and
a valid result is the decode of some 40 durations (R36 (c), (d)). -/
structure Inv (s : State) : Prop where
  count_le : s.count.toNat ≤ 41
  dur_wf : s.dur.wf = true
  result_decodes : s.rvalid = true → ∃ d : Vector Tick 40, DecodesTo d s.result

/-- The next state, when there is one. -/
def nextState : Host.Outcome State Fault Refusal → Option State
  | .next t => some t
  | .fault _ => none
  | .refused _ => none

/-- A run of commands: the merged stream of the two agents, executed in order (R10, R58). -/
def runCommands : List Instr → State → Option State
  | [], s => some s
  | i :: is, s => (nextState (exec i s)).bind (runCommands is)

/-- Pulses at any times: `PULSE t, w` for each pair. -/
def pulses (ps : List (Tick × Tick)) : List Instr := ps.flatMap fun p => pulse p.1 p.2

/-- `m` is a merge of the streams `e` and `p` that keeps the order of each (R11, R185). -/
inductive Interleaves {α : Type} : List α → List α → List α → Prop where
  | nil : Interleaves [] [] []
  | left {x : α} {e p m : List α} : Interleaves e p m → Interleaves (x :: e) p (x :: m)
  | right {x : α} {e p m : List α} : Interleaves e p m → Interleaves e (x :: p) (x :: m)

/-- The level and timestamp of the last edge event of a stream, if it has one. -/
def lastEdge (cmds : List Instr) : Option Instr :=
  (cmds.filter fun i => i.agent == .edge).getLast?

/-- The error kinds of R181. -/
inductive ErrorKind where
  /-- (a): the GPIO backend cannot be reached; detected by the host, outside the block. -/
  | connectionFailure
  /-- (b): a `POLL` before 40 durations have come. -/
  | incompleteFrame
  /-- (b'): a 41st pulse, or a `POLL` after one. -/
  | overCount
  /-- (c): a decode with a bad checksum. -/
  | checksumMismatch
  /-- (d): a falling edge with no matching rise. -/
  | malformedEdgeOrder
  deriving DecidableEq, Repr

/-- A falling-edge command. -/
def isFallingEdge : Instr → Bool
  | .nop => false
  | .edgeF _ => true
  | .edgeR _ => false
  | .clear => false
  | .poll => false

/-- Whether a command executed in a state meets an error kind: column "detected by" of R181. -/
def meetsErrorKind (k : ErrorKind) (i : Instr) (s : State) : Bool :=
  match k with
  | .connectionFailure => false
  | .incompleteFrame => i == .poll && hasRoom s.count
  | .overCount => (i == .poll && overflowed s.count) || (isFallingEdge i && s.pend && !hasRoom s.count)
  | .checksumMismatch => i == .poll && frameReady s.count && !(decodeFrame (snapshot s)).valid
  | .malformedEdgeOrder => isFallingEdge i && !s.pend

/-- What a run shows after a step: the response, `STATUS`, the result outputs and `READING` (R10, R76 to R78). -/
def observe (s : State) : Option Response × BitVec 9 × Option ResultRegs × BitVec 7 × Option (BitVec 32) :=
  (s.rsp, status s, resultOutputs s, readingHigh s, reading s)

/-- Two states that differ at most in what has no value: `PRISE` without a pending rise, `DUR` at or beyond `COUNT`,
the result registers before the first decode (R23, R24, R27, R40). -/
structure SameUpToUnspecified (s t : State) : Prop where
  pend : s.pend = t.pend
  prise : s.pend = true → s.prise = t.prise
  count : s.count = t.count
  dur : ∀ k, k < min s.count.toNat 40 → s.dur.read k = t.dur.read k
  rvalid : s.rvalid = t.rvalid
  result : s.rvalid = true → s.result = t.result
  rsp : s.rsp = t.rsp
  port : s.port = t.port
  cfg : s.cfg = t.cfg

end Sys2Proof.Machine
end

