-- ==== Sys2Proof/Certificates/Slice0/Obligations.lean ====
section
/-! DEFINITION. The statements for the provers. -/

open Sys2Proof Sys2Proof.Machine

/-! ### Encoding (spec/30_encoding.md) -/

/-- The words of R79's example and the canonical words of R73 decode to the commands they stand for. -/
def Obligations.SpecExampleWordsDecode : Prop :=
  decodeWord 0x000000000 = .nop ∧ decodeWord 0x000000002 = .clear ∧ decodeWord 0x000000003 = .poll ∧
    decodeWord 0x000001F45 = .edgeR 1000 ∧ decodeWord 0x000002031 = .edgeF 1030 ∧
    decodeWord 0x7FFFFFFFF = .poll ∧ decodeWord 0x00000000E = .clear

/-- R70, R71: the word's value is `ts·8 + lvl·4 + op`, the three fields are read back as they stand, and the timestamp
reaches the `EDGE` command as it stands in the word. -/
def Obligations.CommandWordHoldsItsThreeFields : Prop :=
  ∀ (ts : Tick) (lvl : BitVec 1) (op : BitVec 2),
    (commandWord ts lvl op).toNat = ts.toNat * 8 + lvl.toNat * 4 + op.toNat ∧
      tsField (commandWord ts lvl op) = ts ∧ lvlField (commandWord ts lvl op) = lvl ∧
      opField (commandWord ts lvl op) = op ∧
      decodeWord (commandWord ts 0 1) = .edgeF ts ∧ decodeWord (commandWord ts 1 1) = .edgeR ts

/-- Decode and encode agree, both ways: a well-formed command is read back from its word, and a word is read back from
its command up to the fields R73 says are ignored, which an assembler writes as zero. That a pattern wider than the port
is rejected is the model's choice (notes/assumptions/8.md). -/
def Obligations.DecodeAndEncodeAgree : Prop :=
  (∀ i : Instr, i.wellFormed = true → decodeWord (encode i) = i) ∧
    (∀ w : CommandWord, encode (decodeWord w) = canonicalWord w) ∧
    ∀ n : Nat, 2 ^ 35 ≤ n → decodeBits n = .error .wordTooWide

/-- R72: the five rows of the opcode table; exactly one row matches every word, and it is the row of the command the
word decodes to. -/
def Obligations.ExactlyOneOpcodeRowMatchesEveryWord : Prop :=
  opcodeTable.map (fun r => (r.mnemonic, r.pattern.toNat, r.mask.toNat)) =
    [("NOP", 0, 3), ("EDGE.F", 1, 7), ("EDGE.R", 5, 7), ("CLEAR", 2, 3), ("POLL", 3, 3)] ∧
  ∀ w : CommandWord, ∃ r ∈ opcodeTable, r.matches w = true ∧ w &&& r.mask = r.pattern ∧
    r.mnemonic = (decodeWord w).mnemonic ∧ ∀ r' ∈ opcodeTable, w &&& r'.mask = r'.pattern → r' = r

/-- R73: every word of the port's width is a legal command, and for `NOP`, `CLEAR` and
`POLL` the fields `lvl` and `ts` change nothing; the canonical words are `0x0`, `0x2`, `0x3`. -/
def Obligations.EveryWordIsLegalAndIgnoredFieldsChangeNothing : Prop :=
  (∀ n : Nat, n < 2 ^ 35 → decodeBits n = .ok (decodeWord (BitVec.ofNat 35 n))) ∧
    (∀ w : CommandWord, exec (decodeWord w) = exec (decodeWord (canonicalWord w))) ∧
    (∀ (op : BitVec 2) (lvl lvl' : BitVec 1) (ts ts' : Tick), op ≠ 1 →
      decodeWord (commandWord ts lvl op) = decodeWord (commandWord ts' lvl' op)) ∧
    (encode .nop).toNat = 0 ∧ (encode .clear).toNat = 2 ∧ (encode .poll).toNat = 3

/-! ### Steps and runs (spec/00_scope.md R10) -/

/-- A step executes the command the next word on the port decodes to, on the state with that word taken; the reset
input resets; with nothing on the port the response is `NONE` and no register changes (R195). That the port is a queue in
the state is the model's choice (notes/assumptions/4.md), and that a step with nothing on the port is the idle row of R195 is
its inference (notes/assumptions/5.md). -/
def Obligations.StepRunsTheNextInput : Prop :=
  ∀ (s : State) (w : CommandWord) (rest : List Input),
    (s.port = .command w :: rest → step s = exec (decodeWord w) { s with port := rest }) ∧
      (s.port = .reset :: rest → step s = .next (applyReset { s with port := rest })) ∧
      (s.port = [] → step s = .next { s with rsp := some .nothing })

/-- A table word placed where the next command is fetched is the very next thing executed. -/
def Obligations.PlacedWordIsExecutedNext : Prop :=
  ∀ (nbits w : Nat) (i : Instr) (s : State),
    decodeTableWord nbits w = some i → step (s.withFetchWord nbits w) = exec i s

/-- R10: the words on the port are executed in order, one per step, each on the state the one before left. -/
def Obligations.PortWordsRunInOrder : Prop :=
  ∀ (ws : List CommandWord) (rest : List Input) (s : State), s.port = ws.map Input.command ++ rest →
    ∃ t, Sys2Proof.core.run ws.length s = .next t ∧
      runCommands (ws.map decodeWord) { s with port := rest } = some t

/-- R180: every command completes in every state and yields a response, and leaves a state in which every command can
be executed. -/
def Obligations.EveryCommandCompletesWithAResponse : Prop :=
  (∀ (i : Instr) (s : State), ∃ t r, exec i s = .next t ∧ t.rsp = some r ∧ ∀ j : Instr, ∃ u, exec j t = .next u) ∧
    ∀ s : State, ∃ t, step s = .next t

/-- R181, R182: no command meets two error kinds at once, the first never reaches the block, and each of the others is a
value: the response and the state recorded that R181 gives it. -/
def Obligations.EachErrorKindIsItsOwnValue : Prop :=
  ∀ (i : Instr) (s : State),
    (∀ k k' : ErrorKind, meetsErrorKind k i s = true → meetsErrorKind k' i s = true → k = k') ∧
    meetsErrorKind .connectionFailure i s = false ∧
    ∃ t, exec i s = .next t ∧
      (meetsErrorKind .incompleteFrame i s = true →
        t.rsp = some .notReady ∧ t.count = s.count ∧ t.rvalid = s.rvalid ∧ t.result = s.result) ∧
      (meetsErrorKind .overCount i s = true →
        overflowed t.count = true ∧ (i = .poll → t.rsp = some .notReady) ∧ t.rvalid = s.rvalid ∧ t.result = s.result) ∧
      (meetsErrorKind .checksumMismatch i s = true →
        t.rsp = some .csumErr ∧ t.result.valid = false ∧ t.rvalid = true ∧ ∃ d, DecodesTo d t.result) ∧
      (meetsErrorKind .malformedEdgeOrder i s = true → t.rsp = some .nothing ∧ t = { s with rsp := t.rsp })

/-! ### The edge recorder (spec/40_edge_recorder.md) -/

/-- R90: `EDGE.R` stores its timestamp as pending rise in every state, and changes nothing else but the response. -/
def Obligations.RisingEdgeBecomesThePendingRise : Prop :=
  ∀ (ts : Tick) (s : State), ∃ t, exec (.edgeR ts) s = .next t ∧
    t.pend = true ∧ t.prise = ts ∧ t.rsp = some .nothing ∧
    t.count = s.count ∧ t.dur = s.dur ∧ (∀ k, memRead k t = memRead k s) ∧
    t.rvalid = s.rvalid ∧ t.result = s.result ∧ t.port = s.port ∧ t.cfg = s.cfg

/-- R91: `EDGE.F` ends with no pending rise; without one before, nothing else changes; with one, the duration is
appended at index `COUNT` while `COUNT < 40` and every other entry reads as before, and from 40 on it is dropped and
`COUNT` becomes 41. `FRAME_READY` and `OVF` follow `COUNT`. -/
def Obligations.FallingEdgeClosesThePendingPulse : Prop :=
  ∀ (ts : Tick) (s : State), s.dur.wf = true → ∃ t, exec (.edgeF ts) s = .next t ∧
    t.pend = false ∧ t.rsp = some .nothing ∧
    t.prise = s.prise ∧ t.rvalid = s.rvalid ∧ t.result = s.result ∧ t.port = s.port ∧ t.cfg = s.cfg ∧
    (s.pend = false → t.count = s.count ∧ t.dur = s.dur) ∧
    (s.pend = true → s.count.toNat < 40 →
      t.count.toNat = s.count.toNat + 1 ∧
      (memRead s.count.toNat t).toNat = (ts.toNat + (2 ^ 32 - s.prise.toNat)) % 2 ^ 32 ∧
      (∀ k, k ≠ s.count.toNat → memRead k t = memRead k s)) ∧
    (s.pend = true → 40 ≤ s.count.toNat → t.count.toNat = 41 ∧ t.dur = s.dur) ∧
    (s.pend = true → frameReady t.count = decide (s.count.toNat = 39) ∧
      overflowed t.count = decide (40 ≤ s.count.toNat))

/-- R92, at every width: the difference is the unsigned one modulo `2^w`, and it is the true elapsed tick count reduced
modulo `2^w`. -/
def Obligations.PulseLengthIsElapsedTimeModulo : Prop :=
  ∀ w : Nat,
    (∀ ts prise : BitVec w, (pulseLength ts prise).toNat =
      if prise.toNat ≤ ts.toNat then ts.toNat - prise.toNat else ts.toNat + 2 ^ w - prise.toNat) ∧
    ∀ start elapsed : Nat,
      (pulseLength (BitVec.ofNat w (start + elapsed)) (BitVec.ofNat w start)).toNat = elapsed % 2 ^ w

/-- R93 with `CLR_PEND = 0`: after any run of commands the pending rise is decided by the last `EDGE` command alone; the
commands `NOP`, `CLEAR` and `POLL` are ignored for this purpose. -/
def Obligations.LastEdgeDecidesThePendingRise : Prop :=
  ∀ (cmds : List Instr) (s : State), s.cfg.clrPend = false → ∃ t, runCommands cmds s = some t ∧
    (lastEdge cmds = none → t.pend = s.pend ∧ t.prise = s.prise) ∧
    (∀ ts, lastEdge cmds = some (.edgeR ts) → t.pend = true ∧ t.prise = ts) ∧
    ∀ ts, lastEdge cmds = some (.edgeF ts) → t.pend = false

/-- R24, R53, R57 (a): a closed pulse is appended after the durations already held while there is room; no other command
adds to, reorders or shortens the live sequence, but `CLEAR` and a decoding `POLL` empty it. -/
def Obligations.LiveSequenceIsAppendOnlyUntilCleared : Prop :=
  ∀ s : State, s.dur.wf = true →
    (∀ ts, ∃ t, exec (.edgeF ts) s = .next t ∧
      liveDurations t = if s.pend = true ∧ s.count.toNat < 40 then liveDurations s ++ [pulseLength ts s.prise]
        else liveDurations s) ∧
    (∀ ts, ∃ t, exec (.edgeR ts) s = .next t ∧ liveDurations t = liveDurations s) ∧
    (∃ t, exec .nop s = .next t ∧ liveDurations t = liveDurations s) ∧
    (∃ t, exec .clear s = .next t ∧ liveDurations t = []) ∧
    ∃ t, exec .poll s = .next t ∧ liveDurations t = if s.count.toNat = 40 then [] else liveDurations s

/-- R25 and R162 (b): once more than 40 durations have come, no run without a `CLEAR` leaves `COUNT = 41` or touches the
buffer or the results, and every `POLL` answers `NOT_READY`; `CLEAR` empties the sequence. -/
def Obligations.OverCountLastsUntilClear : Prop :=
  ∀ s : State, s.count.toNat = 41 →
    (∀ cmds : List Instr, .clear ∉ cmds → ∃ t u, runCommands cmds s = some t ∧
      t.count.toNat = 41 ∧ t.dur = s.dur ∧ t.rvalid = s.rvalid ∧ t.result = s.result ∧
      exec .poll t = .next u ∧ u.rsp = some .notReady) ∧
    ∃ t, exec .clear s = .next t ∧ t.count.toNat = 0

/-! ### The decode stages (spec/41 to 44) -/

/-- R110, R111, at every width: `DMIN` is the least and `DMAX` the greatest duration under unsigned order, and bit `k`
is 1 exactly when `2·d[k] > DMIN + DMAX`. -/
def Obligations.ClassifierComparesWithTheFrameMidpoint : Prop :=
  ∀ (w : Nat) (d : Vector (BitVec w) 40),
    (∃ k : Fin 40, d[k] = (classify d).1) ∧ (∀ k : Fin 40, (classify d).1.toNat ≤ d[k].toNat) ∧
    (∃ k : Fin 40, d[k] = (classify d).2.1) ∧ (∀ k : Fin 40, d[k].toNat ≤ (classify d).2.1.toNat) ∧
    ∀ k : Fin 40, (classify d).2.2[k] =
      decide ((classify d).1.toNat + (classify d).2.1.toNat < 2 * d[k].toNat)

/-- R112, at every width: the bit is the strict comparison with the real midpoint, and the three integer forms give the
same 40 bits. -/
def Obligations.ClassifierFormsAgreeWithTheRealMidpoint : Prop :=
  ∀ (w : Nat) (d : Vector (BitVec w) 40) (k : Fin 40),
    ((classify d).2.2[k] = true ↔
      ((classify d).1.toNat : ℚ) + (((classify d).2.1.toNat : ℚ) - ((classify d).1.toNat : ℚ)) / 2
        < (d[k].toNat : ℚ)) ∧
    ((classify d).2.2[k] = true ↔ (classify d).1.toNat + (classify d).2.1.toNat < 2 * d[k].toNat) ∧
    ((classify d).2.2[k] = true ↔
      (classify d).2.1.toNat - (classify d).1.toNat < 2 * (d[k].toNat - (classify d).1.toNat)) ∧
    ((classify d).2.2[k] = true ↔
      (classify d).1.toNat + ((classify d).2.1.toNat - (classify d).1.toNat) / 2 < d[k].toNat)

/-- R113: 40 identical durations are decoded, not rejected: all bits 0, five zero bytes, a good checksum, `OK`, and both
readings 0. -/
def Obligations.DegenerateFrameDecodesToZeros : Prop :=
  ∀ (s : State) (v : Tick), s.count.toNat = 40 → (∀ k < 40, memRead k s = v) →
    ∃ t, exec .poll s = .next t ∧ t.rsp = some .ok ∧ t.rvalid = true ∧
      t.result.dmin = v ∧ t.result.dmax = v ∧ (∀ k : Fin 40, t.result.bits[k] = false) ∧
      (∀ g : Fin 5, t.result.bytes[g] = 0) ∧ t.result.sum = 0 ∧ t.result.valid = true ∧
      t.result.humX10 = 0 ∧ t.result.tempX10 = 0

/-- R114 (a), (b), (c), (e), at every width: the shortest durations read as 0, the longest as 1 unless all are equal,
the bits are monotone in the durations, and 40 ones never come out. -/
def Obligations.ClassifierSplitsAtTheExtremes : Prop :=
  ∀ (w : Nat) (d : Vector (BitVec w) 40),
    (∀ k : Fin 40, d[k] = (classify d).1 → (classify d).2.2[k] = false) ∧
    (∀ k : Fin 40, (classify d).1 ≠ (classify d).2.1 → d[k] = (classify d).2.1 → (classify d).2.2[k] = true) ∧
    (∀ i j : Fin 40, d[i].toNat ≤ d[j].toNat → (classify d).2.2[i] = true → (classify d).2.2[j] = true) ∧
    (∃ k : Fin 40, (classify d).2.2[k] = false) ∧
    ((∀ k : Fin 40, (classify d).2.2[k] = false) → ∀ i j : Fin 40, d[i] = d[j])

/-- R114 (d), at every width: scaling all durations by one positive constant and adding another leaves every bit, as
long as no value leaves the range. -/
def Obligations.ClassifierIgnoresScaleAndOffset : Prop :=
  ∀ (w : Nat) (d d' : Vector (BitVec w) 40) (scale offset : Nat), 0 < scale →
    (∀ k : Fin 40, d'[k].toNat = scale * d[k].toNat + offset) → (classify d').2.2 = (classify d).2.2

/-- R125: `BYTE[g]` is the weighted sum of its eight bits, bit `7-j` of it is bit `8g+j` of the sequence, and no bit is
dropped or duplicated: packing is a bijection. -/
def Obligations.PackerPutsTheFirstBitOnTop : Prop :=
  (∀ (bits : Vector Bool 40) (g : Fin 5) (j : Fin 8),
    (pack bits)[g].toNat = ∑ i : Fin 8, bits[8 * g.val + i.val].toNat * 2 ^ (7 - i.val) ∧
    (pack bits)[g].getLsbD (7 - j.val) = bits[8 * g.val + j.val]) ∧
  Function.Bijective pack

/-- R126: after eight bits the start value of the shift register has left by the top. -/
def Obligations.ShiftRegisterStartDoesNotMatter : Prop :=
  ∀ (start : Byte) (group : List Bool), group.length = 8 → group.foldl shiftIn start = packByte group

/-- R29: the 40-bit view has `BIT[0]` at bit 39 and equals the five bytes put together, first byte on top. -/
def Obligations.FrameWordIsTheFiveBytes : Prop :=
  ∀ bits : Vector Bool 40,
    (∀ k : Fin 40, (frame40 bits).getLsbD (39 - k.val) = bits[k]) ∧
    frame40 bits = (pack bits)[0] ++ (pack bits)[1] ++ (pack bits)[2] ++ (pack bits)[3] ++ (pack bits)[4]

/-- R135, R136: `SUM` is the sum of the first four bytes modulo 256, and the frame is valid iff it equals the fifth. -/
def Obligations.ChecksumIsTheSumModulo256 : Prop :=
  ∀ bytes : Vector Byte 5,
    (check bytes).1.toNat = (bytes[0].toNat + bytes[1].toNat + bytes[2].toNat + bytes[3].toNat) % 256 ∧
    ((check bytes).2 = true ↔
      (bytes[0].toNat + bytes[1].toNat + bytes[2].toNat + bytes[3].toNat) % 256 = bytes[4].toNat)

/-- R137: an 8-bit accumulator that starts at 0 and adds the four bytes in any order, dropping every carry, ends at the
same `SUM`. -/
def Obligations.AccumulatorOrderDoesNotMatter : Prop :=
  ∀ (bytes : Vector Byte 5) (order : List Byte), order.Perm [bytes[0], bytes[1], bytes[2], bytes[3]] →
    order.foldl (fun acc b => acc + b) 0 = (check bytes).1

/-- R145, R147, R148: both readings are `10·integer + decimal` with no wrap, at most 2805; divided by ten they are
exactly the source's numbers; with a single-digit decimal byte the digits are the two bytes, and a larger one carries
into the integer part. -/
def Obligations.ConverterIsExactInTenths : Prop :=
  ∀ b : Vector Byte 5,
    (convert b).1.toNat = 10 * b[0].toNat + b[1].toNat ∧ (convert b).2.toNat = 10 * b[2].toNat + b[3].toNat ∧
    (convert b).1.toNat ≤ 2805 ∧ (convert b).2.toNat ≤ 2805 ∧
    ((convert b).1.toNat : ℚ) / 10 = (b[0].toNat : ℚ) + (b[1].toNat : ℚ) / 10 ∧
    ((convert b).2.toNat : ℚ) / 10 = (b[2].toNat : ℚ) + (b[3].toNat : ℚ) / 10 ∧
    (b[1].toNat ≤ 9 → (convert b).1.toNat / 10 = b[0].toNat ∧ (convert b).1.toNat % 10 = b[1].toNat) ∧
    (b[3].toNat ≤ 9 → (convert b).2.toNat / 10 = b[2].toNat ∧ (convert b).2.toNat % 10 = b[3].toNat) ∧
    (9 < b[1].toNat → b[0].toNat < (convert b).1.toNat / 10) ∧ (9 < b[3].toNat → b[2].toNat < (convert b).2.toNat / 10)

/-! ### The control commands (spec/45_control.md) -/

/-- R160: `NOP` answers `NONE` and changes no state. -/
def Obligations.NopOnlyAnswers : Prop :=
  ∀ s : State, ∃ t, exec .nop s = .next t ∧ t.rsp = some .nothing ∧
    t.pend = s.pend ∧ t.prise = s.prise ∧ t.dur = s.dur ∧ t.count = s.count ∧ t.rvalid = s.rvalid ∧
    t.result = s.result ∧ t.port = s.port ∧ t.cfg = s.cfg

/-- R161: `CLEAR` zeroes `COUNT` (so both flags fall), drops the pending rise only if `CLR_PEND = 1`, and leaves `PRISE`,
every entry of the buffer and the result group. -/
def Obligations.ClearEmptiesTheLiveSequence : Prop :=
  ∀ s : State, ∃ t, exec .clear s = .next t ∧ t.rsp = some .nothing ∧
    t.count.toNat = 0 ∧ frameReady t.count = false ∧ overflowed t.count = false ∧
    (s.cfg.clrPend = true → t.pend = false) ∧ (s.cfg.clrPend = false → t.pend = s.pend) ∧
    t.prise = s.prise ∧ t.dur = s.dur ∧ (∀ k, memRead k t = memRead k s) ∧
    t.rvalid = s.rvalid ∧ t.result = s.result ∧ t.port = s.port ∧ t.cfg = s.cfg

/-- R162: at `COUNT = 40` exactly, `POLL` writes the decode of the 40 entries into the result registers, sets `RVALID`,
clears the live sequence and answers by the checksum; at any other count nothing but the response changes. -/
def Obligations.PollDecodesAtExactlyForty : Prop :=
  ∀ s : State,
    (s.count.toNat = 40 → ∃ t, exec .poll s = .next t ∧
      (∃ d : Vector Tick 40, (∀ k : Fin 40, d[k] = memRead k.val s) ∧ DecodesTo d t.result) ∧
      t.rvalid = true ∧ t.count.toNat = 0 ∧
      (s.cfg.clrPend = true → t.pend = false) ∧ (s.cfg.clrPend = false → t.pend = s.pend) ∧
      (t.result.valid = true → t.rsp = some .ok) ∧ (t.result.valid = false → t.rsp = some .csumErr) ∧
      t.prise = s.prise ∧ t.dur = s.dur ∧ t.port = s.port ∧ t.cfg = s.cfg) ∧
    (s.count.toNat ≠ 40 → ∃ t, exec .poll s = .next t ∧ t.rsp = some .notReady ∧
      t.pend = s.pend ∧ t.prise = s.prise ∧ t.dur = s.dur ∧ t.count = s.count ∧ t.rvalid = s.rvalid ∧
      t.result = s.result ∧ t.port = s.port ∧ t.cfg = s.cfg)

/-- R164: `CLEAR` and the clear inside a decoding `POLL` have the same effect on the recorder group. -/
def Obligations.BothClearsLeaveTheSameRecorder : Prop :=
  ∀ s : State, s.count.toNat = 40 → ∃ t u, exec .clear s = .next t ∧ exec .poll s = .next u ∧
    t.pend = u.pend ∧ t.prise = u.prise ∧ t.dur = u.dur ∧ t.count = u.count

/-- R163: the whole decode is a function of the 40 durations: two states that agree on them get the same results and the
same response, whatever else they hold. -/
def Obligations.DecodeDependsOnlyOnTheDurations : Prop :=
  ∀ s s' : State, s.count.toNat = 40 → s'.count.toNat = 40 → (∀ k < 40, memRead k s = memRead k s') →
    ∃ t t', exec .poll s = .next t ∧ exec .poll s' = .next t' ∧ t.result = t'.result ∧ t.rsp = t'.rsp

/-! ### Outputs (spec/30_encoding.md R75 to R78) and results (spec/10_state.md R27) -/

/-- R75: which response each command gives, and the four codes. -/
def Obligations.ResponseOfEveryCommand : Prop :=
  (∀ (i : Instr) (s : State), ∃ t, exec i s = .next t ∧
    (i ≠ .poll → t.rsp = some .nothing) ∧
    (i = .poll → s.count.toNat ≠ 40 → t.rsp = some .notReady) ∧
    (i = .poll → s.count.toNat = 40 → t.rvalid = true ∧ (t.rsp = some .ok ↔ t.result.valid = true) ∧
      (t.rsp = some .csumErr ↔ t.result.valid = false))) ∧
  [Response.nothing, .notReady, .ok, .csumErr].map (fun r => r.code.toNat) = [0, 1, 2, 3]

/-- R76, R26: the value of the `STATUS` word, and that it is 0 after reset. -/
def Obligations.StatusShowsTheRecorder : Prop :=
  (∀ s : State, (status s).toNat = s.count.toNat + (if s.count.toNat = 40 then 2 ^ 6 else 0) +
    (if s.count.toNat = 41 then 2 ^ 7 else 0) + (if s.pend = true then 2 ^ 8 else 0)) ∧
  (status State.reset).toNat = 0

/-- The value of the `READING` word once a result is held (R78); bits 31 to 25 are `RVALID` at all times. That the word and
its low 25 bits, which R78 calls unspecified without a result, are then `none` is the model's inference
(notes/assumptions/13.md). -/
def Obligations.ReadingPacksTheResult : Prop :=
  ∀ s : State,
    (s.rvalid = true → ∃ w, reading s = some w ∧ w.toNat = s.result.humX10.toNat + s.result.tempX10.toNat * 2 ^ 12 +
      s.result.valid.toNat * 2 ^ 24 + 2 ^ 25) ∧
    (s.rvalid = false → reading s = none ∧ readingLow s = none) ∧
    (readingHigh s).toNat = s.rvalid.toNat

/-- R27: the result registers and `RVALID` are written all together and only by a decoding `POLL`, with the decode of the
40 entries; every other command leaves all of them; without a decode since reset they hold no value. -/
def Obligations.OnlyADecodingPollWritesResults : Prop :=
  (∀ (i : Instr) (s : State), ∃ t, exec i s = .next t ∧
    (¬ (i = .poll ∧ s.count.toNat = 40) → t.rvalid = s.rvalid ∧ t.result = s.result) ∧
    (i = .poll ∧ s.count.toNat = 40 → resultOutputs t = some t.result ∧
      ∃ d : Vector Tick 40, (∀ k : Fin 40, d[k] = memRead k.val s) ∧ DecodesTo d t.result)) ∧
  ∀ s : State, (s.rvalid = false → resultOutputs s = none) ∧ resultOutputs (applyReset s) = none

/-- R20, column "written by": for every register, the only commands that can change it, and the value a marker or flag
then has; and no command touches the inputs or the build parameter. -/
def Obligations.EachRegisterHasItsWriters : Prop :=
  ∀ (i : Instr) (s : State), ∃ t, exec i s = .next t ∧
    (t.pend ≠ s.pend →
      (∃ ts, i = .edgeR ts ∧ t.pend = true) ∨ (∃ ts, i = .edgeF ts ∧ t.pend = false) ∨
      (s.cfg.clrPend = true ∧ t.pend = false ∧ (i = .clear ∨ (i = .poll ∧ s.count.toNat = 40)))) ∧
    (t.prise ≠ s.prise → ∃ ts, i = .edgeR ts ∧ t.prise = ts) ∧
    (t.dur ≠ s.dur → (∃ ts, i = .edgeF ts) ∧ s.pend = true ∧ s.count.toNat < 40) ∧
    (t.count ≠ s.count →
      ((∃ ts, i = .edgeF ts) ∧ s.pend = true) ∨
      (t.count.toNat = 0 ∧ (i = .clear ∨ (i = .poll ∧ s.count.toNat = 40)))) ∧
    (t.rvalid ≠ s.rvalid → i = .poll ∧ s.count.toNat = 40 ∧ t.rvalid = true) ∧
    (t.result ≠ s.result → i = .poll ∧ s.count.toNat = 40) ∧
    t.port = s.port ∧ t.cfg = s.cfg

/-! ### Invariants, reset (spec/10_state.md R36, R40; spec/70_reset_and_hazards.md) -/

/-- R36 (a), (c), (d) and the canonical form of the buffer: from every state that has the invariants, every step leads
to one that has them. -/
def Obligations.EveryStepKeepsTheInvariants : Prop :=
  ∀ s : State, Inv s → ∃ t, step s = .next t ∧ Inv t

/-- The state after reset has the invariants. -/
def Obligations.ResetHasTheInvariants : Prop := Inv State.reset

/-- R40, R210: what the spec says of the state after reset, in registers and in the abstract form. -/
def Obligations.ResetLeavesNoPendingRiseAndNoDurations : Prop :=
  State.reset.pend = false ∧ State.reset.count.toNat = 0 ∧ State.reset.rvalid = false ∧
    frameReady State.reset.count = false ∧ overflowed State.reset.count = false ∧
    resultOutputs State.reset = none ∧ State.reset.abstract = AbsState.initial

/-- After R211: reset may come at any step boundary and discards the live sequence, the pending rise and the last result; it
is the only way to make `RVALID` 0 again, and with `CLEAR` one of the two ways to leave `COUNT = 41`. That the
reset input is an entry of the port and that the inputs after it stay is the model's choice (notes/assumptions/4.md). -/
def Obligations.ResetAtAnyStepDiscardsEverything : Prop :=
  ∀ s : State,
    (∀ rest, s.port = .reset :: rest → ∃ t, step s = .next t ∧ t.abstract = AbsState.initial ∧
      t.pend = false ∧ t.count.toNat = 0 ∧ t.rvalid = false ∧ t.port = rest ∧ t.cfg = s.cfg) ∧
    (∀ t, step s = .next t → s.rvalid = true → t.rvalid = false → ∃ rest, s.port = .reset :: rest) ∧
    ∀ t, step s = .next t → s.count.toNat = 41 → t.count.toNat ≠ 41 →
      ∃ rest, s.port = .reset :: rest ∨ ∃ w, s.port = .command w :: rest ∧ decodeWord w = .clear

/-- R219: a rising edge before a `CLEAR` and its falling edge after it: with `CLR_PEND = 0` the duration, measured from
the old rise, becomes the first of the new sequence; with `CLR_PEND = 1` the falling edge is ignored. -/
def Obligations.PendingRiseAcrossAClear : Prop :=
  ∀ (rise fall : Tick) (s : State), s.dur.wf = true →
    ∃ t, runCommands [.edgeR rise, .clear, .edgeF fall] s = some t ∧
      (s.cfg.clrPend = false → liveDurations t = [pulseLength fall rise] ∧ t.count.toNat = 1) ∧
      (s.cfg.clrPend = true → liveDurations t = [] ∧ t.count.toNat = 0)

/-- R220, R57 (a): after a `CLEAR` the first 40 pulses fill slots 0 to 39 in order with their widths, none skipped, and
`COUNT` counts the pulses up to 41. -/
def Obligations.PulsesFillTheSlotsInOrder : Prop :=
  ∀ (ps : List (Tick × Tick)) (s : State), s.dur.wf = true →
    ∃ t, runCommands (.clear :: pulses ps) s = some t ∧
      liveDurations t = (ps.map Prod.snd).take 40 ∧ t.count.toNat = min ps.length 41

/-! ### The two agents (spec/60_exceptions.md R185) -/

/-- R185, program P5: a `POLL` just before or just after the 40th falling edge leads to the same registers, only the
responses differ; after a 41st pulse it comes too late. -/
def Obligations.PollOnEitherSideOfTheLastFall : Prop :=
  ∀ (ts rise fall : Tick) (s : State), s.dur.wf = true → s.pend = true → s.count.toNat = 39 →
    (∃ t u, runCommands [.poll, .edgeF ts, .poll] s = some t ∧ runCommands [.edgeF ts, .poll, .poll] s = some u ∧
      t.abstract = u.abstract ∧ t.abstract.result ≠ none ∧ (t.rsp = some .ok ∨ t.rsp = some .csumErr) ∧
      u.rsp = some .notReady) ∧
    ∃ t, runCommands [.edgeF ts, .edgeR rise, .edgeF fall, .poll] s = some t ∧ t.rsp = some .notReady ∧
      t.count.toNat = 41 ∧ t.rvalid = s.rvalid ∧ t.result = s.result

/-- R185, R58: however the 80 edges of a 40-pulse frame and any stream of `NOP`s and `POLL`s of the poll agent are merged
after a `CLEAR`, once a last `POLL` has come the result registers hold the decode of exactly the 40 widths. -/
def Obligations.EveryInterleavingDecodesTheFrame : Prop :=
  ∀ (ps : Vector (Tick × Tick) 40) (polls merged : List Instr) (s : State), s.dur.wf = true →
    (∀ i ∈ polls, i = .nop ∨ i = .poll) → Interleaves (pulses ps.toList) polls merged →
    ∃ t, runCommands (.clear :: merged ++ [.poll]) s = some t ∧ t.rvalid = true ∧ t.count.toNat = 0 ∧
      DecodesTo (ps.map Prod.snd) t.result

/-- R128: the round trip. For any short and long width, any start and gap, and any five bytes but the five `0xFF` that
the classifier cannot produce, `CLEAR; FRAME …; POLL` from any state ends with those bytes, their readings, and a
response that says whether their checksum is good. -/
def Obligations.FrameRoundTripRecoversTheBytes : Prop :=
  ∀ (t0 ws wl gap : Tick) (b : Vector Byte 5) (s : State), s.dur.wf = true → ws.toNat < wl.toNat →
    b ≠ #v[0xFF, 0xFF, 0xFF, 0xFF, 0xFF] →
    ∃ t, runCommands (.clear :: frame t0 ws wl gap b ++ [.poll]) s = some t ∧
      t.result.bytes = b ∧ t.rvalid = true ∧ t.count.toNat = 0 ∧
      t.result.humX10.toNat = 10 * b[0].toNat + b[1].toNat ∧
      t.result.tempX10.toNat = 10 * b[2].toNat + b[3].toNat ∧
      t.rsp = some (if (b[0].toNat + b[1].toNat + b[2].toNat + b[3].toNat) % 256 = b[4].toNat then .ok else .csumErr)

/-- R128 at the stages: the widths of a frame classify back to its bits, and its bits pack back to its bytes. -/
def Obligations.FrameWidthsClassifyBackToTheirBits : Prop :=
  ∀ (ws wl : Tick) (b : Vector Byte 5), pack (frameBits b) = b ∧
    (ws.toNat < wl.toNat → b ≠ #v[0xFF, 0xFF, 0xFF, 0xFF, 0xFF] →
      (classify (frameWidths ws wl b)).2.2 = frameBits b)

/-! ### The abstract form and what has no value (spec/10_state.md R21, R23, R24, R40) -/

/-- R21: the registers and the abstract record are two forms of the same machine: every command does to the registers
what it does to the record, with the same response; and the two correspond field by field. -/
def Obligations.RegistersRefineTheAbstractForm : Prop :=
  ∀ (i : Instr) (s : State), s.dur.wf = true → s.count.toNat ≤ 41 →
    (∃ t r, exec i s = .next t ∧ t.rsp = some r ∧ absExec s.cfg.clrPend i s.abstract = (t.abstract, r)) ∧
    s.abstract.pending.isSome = s.pend ∧ s.abstract.durs.length ≤ 40 ∧
    s.count.toNat = s.abstract.durs.length + s.abstract.ovf.toNat ∧
    (s.abstract.ovf = true → s.abstract.durs.length = 40) ∧ s.abstract.result.isSome = s.rvalid

/-- R23, R24, R27, R40: two states that differ at most in what has no value (so in whatever reset or a clear may have
left there) stay so at every step and show the same outputs: no claim about the outputs can rest on the reset values
this model chose (notes/assumptions/3.md). -/
def Obligations.UnspecifiedContentsAreNeverObserved : Prop :=
  ∀ s t : State, s.dur.wf = true → t.dur.wf = true → SameUpToUnspecified s t →
    ∃ s' t', step s = .next s' ∧ step t = .next t' ∧ SameUpToUnspecified s' t' ∧ observe s' = observe t'

/-- The canonical form of the buffer: a write inside it keeps the form and is read back, other entries read as before,
and buffers that read alike are the same data. -/
def Obligations.BufferIsCanonical : Prop :=
  (∀ (m : Memory) (k : Nat) (v : Tick), m.wf = true → k < 40 →
    (m.write k v).wf = true ∧ ∀ j, (m.write k v).read j = if j = k then v else m.read j) ∧
  ∀ m n : Memory, m.wf = true → n.wf = true → (∀ k < 40, m.read k = n.read k) → m = n

/-! ### The stream syntax and the host (spec/30_encoding.md R79, R80; spec/60_exceptions.md R193) -/

/-- R79: a command written as a line of text is read back as that command. -/
def Obligations.ListingIsReadBack : Prop := ∀ i : Instr, assembleLine (listing i) = .ok [i]

/-- R80: `PULSE` is a rising edge and a falling edge; `FRAME` is 40 pulses, 80 commands; pulse `k` lasts `wl` or `ws` by bit `k`, most significant bit of `b0` first,
and the next one starts its width and the gap later. -/
def Obligations.FrameExpandsToFortyPulses : Prop :=
  (∀ t w : Tick, pulse t w = [.edgeR t, .edgeF (BitVec.ofNat 32 ((t.toNat + w.toNat) % 2 ^ 32))]) ∧
  ∀ (t0 ws wl gap : Tick) (b : Vector Byte 5), (frame t0 ws wl gap b).length = 80 ∧
    ∃ start : Nat → Tick, start 0 = t0 ∧ ∀ k : Fin 40,
      let width := if b[k.val / 8].getLsbD (7 - k.val % 8) = true then wl else ws
      start (k.val + 1) = start k.val + width + gap ∧
      (frame t0 ws wl gap b)[2 * k.val]? = some (.edgeR (start k.val)) ∧
      (frame t0 ws wl gap b)[2 * k.val + 1]? = some (.edgeF (start k.val + width))

/-- Of the host of Machine/Sequencer.lean only, which is the model's choice (notes/assumptions/12.md): while it collects, its
polling timer sends `POLL`, and it goes to COMPLETE on the answer exactly when that `POLL` found 40 durations (after R193,
R224); the live sequence is then empty. -/
def Obligations.SequencerCompletesExactlyOnADecode : Prop :=
  ∀ (h : HostTimes) (last : Option Nat) (s : State),
    (advance h ⟨.running, .collecting, last⟩ .timer).2 = [.send .poll] ∧
    ∃ t r, exec .poll s = .next t ∧ t.rsp = some r ∧
      ((advance h ⟨.running, .collecting, last⟩ (.answered r)).1.phase = .complete ↔ s.count.toNat = 40) ∧
      ((advance h ⟨.running, .collecting, last⟩ (.answered r)).1.phase = .complete → t.count.toNat = 0 ∧ t.rvalid = true)

/-- Of the host of Machine/Sequencer.lean only, which is the model's choice (notes/assumptions/12.md), the order of R212:
boot resets the block, connects and registers the callback; after a failed connection the block gets that reset and
nothing more, whatever happens; only a booted host sends commands; the block is fresh after the boot; a cycle begins with
`CLEAR` and then the start pulse, never before the cadence allows it; every transition becomes its `EDGE` command. -/
def Obligations.HostFollowsTheBootOrder : Prop :=
  ∀ h : HostTimes,
    (∀ es, (runHost h HostState.initial (.boot true :: es)).2 =
      [.resetBlock, .connect, .call .registerEdgeCallback] ++ (runHost h ⟨.running, .idle, none⟩ es).2) ∧
    (∀ es, inputsOf (runHost h HostState.initial (.boot false :: es)).2 = [.reset]) ∧
    (∀ s e i, .send i ∈ (advance h s e).2 → s.session = .running) ∧
    (∀ (connected : Bool) (s : State) rest, s.port = inputsOf (bootActions connected) ++ rest →
      ∃ t, step s = .next t ∧ t.abstract = AbsState.initial ∧ t.port = rest) ∧
    (∀ now last p, p = .idle ∨ p = .collecting →
      ((∀ t, last = some t → t + h.minCyclePeriod ≤ now) →
        advance h ⟨.running, p, last⟩ (.start now) =
          (⟨.running, .awaitingStart, some now⟩, .send .clear :: (startPulse h).map .call)) ∧
      (∀ t, last = some t → now < t + h.minCyclePeriod →
        advance h ⟨.running, p, last⟩ (.start now) = (⟨.running, p, last⟩, []))) ∧
    ∀ p last level ts,
      (advance h ⟨.running, p, last⟩ (.transition level ts)).2 =
        [.send (match level with | .high => .edgeR ts | .low => .edgeF ts)]
end

