-- ==== Sys2Proof/Laws/Config.lean ====
section
/-! SUPPORT. The word types have the widths the parameters give (spec/00_scope.md R5, R6). -/

namespace Sys2Proof

theorem tick_has_tsw_bits : Tick = BitVec Config.tsw := rfl
theorem byte_has_bytew_bits : Byte = BitVec Config.bytew := rfl
theorem countWord_has_cntw_bits : CountWord = BitVec Config.cntw := rfl
theorem tenths_has_x10w_bits : Tenths = BitVec Config.x10w := rfl
theorem commandWord_has_tsw_plus_3_bits : CommandWord = BitVec (Config.tsw + 3) := rfl
theorem frame_is_nbyte_bytes : Config.nslot = Config.nbyte * Config.bytew := rfl

end Sys2Proof
end

