-- ==== Sys2Proof/Laws/Flags.lean ====
section
/-! SUPPORT. The flags of `COUNT` as statements about numbers. -/

namespace Sys2Proof.Machine

@[simp] theorem fullCount_toNat : fullCount.toNat = 40 := rfl
@[simp] theorem overCount_toNat : overCount.toNat = 41 := rfl

theorem hasRoom_iff {c : CountWord} : hasRoom c = true ↔ c.toNat < 40 := by
  simp [hasRoom]

theorem hasRoom_eq_false_iff {c : CountWord} : hasRoom c = false ↔ 40 ≤ c.toNat := by
  simp [hasRoom]

theorem frameReady_iff {c : CountWord} : frameReady c = true ↔ c.toNat = 40 := by
  simp [frameReady, ← BitVec.toNat_inj]

theorem overflowed_iff {c : CountWord} : overflowed c = true ↔ c.toNat = 41 := by
  simp [overflowed, ← BitVec.toNat_inj]

theorem frameReady_eq_decide (c : CountWord) : frameReady c = decide (c.toNat = 40) := by
  rw [Bool.eq_iff_iff, frameReady_iff, decide_eq_true_iff]

theorem overflowed_eq_decide (c : CountWord) : overflowed c = decide (c.toNat = 41) := by
  rw [Bool.eq_iff_iff, overflowed_iff, decide_eq_true_iff]

/-- Everything counting a pulse can do: one more below 40, and 41 from 40 on. -/
theorem countPulse_toNat (c : CountWord) : (countPulse c).toNat = if c.toNat < 40 then c.toNat + 1 else 41 := by
  unfold countPulse
  by_cases h : c.toNat < 40
  · rw [if_pos (hasRoom_iff.mpr h), if_pos h, BitVec.toNat_add,
      show (1 : CountWord).toNat = 1 from rfl]
    omega
  · rw [if_neg (by simpa [hasRoom] using h), if_neg h, overCount_toNat]

end Sys2Proof.Machine
end

