-- ==== Sys2Proof/Laws/Memory.lean ====
section
/-! SUPPORT. The duration buffer: every operation keeps the canonical form, a read after a write, and equal reads make
equal buffers. -/

namespace Sys2Proof.Machine

/-- A canonical tail holds nothing below its lower bound. -/
theorem Memory.read_below {lo k : Nat} {m : Memory} (h : Memory.wfFrom lo m = true) (hk : k < lo) :
    Memory.read m k = Memory.unlisted := by
  induction m generalizing lo with
  | nil => rfl
  | cons e m ih =>
    obtain ⟨a, v⟩ := e
    simp only [Memory.wfFrom, Bool.and_eq_true, decide_eq_true_eq] at h
    rw [Memory.read, if_neg (by omega)]
    exact ih h.2 (by omega)

theorem Memory.wfFrom_mono {lo lo' : Nat} {m : Memory} (h : Memory.wfFrom lo m = true) (hle : lo' ≤ lo) :
    Memory.wfFrom lo' m = true := by
  cases m with
  | nil => rfl
  | cons e m =>
    obtain ⟨a, v⟩ := e
    simp only [Memory.wfFrom, Bool.and_eq_true, decide_eq_true_eq] at h ⊢
    exact ⟨⟨⟨by omega, h.1.1.2⟩, h.1.2⟩, h.2⟩

theorem Memory.wfFrom_cons {lo k : Nat} {v : Tick} {m : Memory} (h : Memory.wfFrom (k + 1) m = true) (hlo : lo ≤ k)
    (hk : k < 40) : Memory.wfFrom lo (Memory.cons k v m) = true := by
  unfold Memory.cons
  split
  · exact Memory.wfFrom_mono h (by omega)
  · rename_i hv
    simp [Memory.wfFrom, h, hlo, hk, hv]

theorem Memory.read_cons_self {k : Nat} {v : Tick} {m : Memory} (h : Memory.wfFrom (k + 1) m = true) :
    Memory.read (Memory.cons k v m) k = v := by
  unfold Memory.cons
  split
  · rename_i hv
    rw [Memory.read_below h (by omega), hv]
  · simp [Memory.read]

theorem Memory.read_cons_of_ne {k j : Nat} {v : Tick} {m : Memory} (hne : j ≠ k) :
    Memory.read (Memory.cons k v m) j = Memory.read m j := by
  unfold Memory.cons
  split
  · rfl
  · rw [Memory.read, if_neg (by omega)]

theorem Memory.wfFrom_write {lo k : Nat} {v : Tick} {m : Memory} (h : Memory.wfFrom lo m = true) (hlo : lo ≤ k)
    (hk : k < 40) : Memory.wfFrom lo (Memory.write m k v) = true := by
  induction m generalizing lo with
  | nil => exact Memory.wfFrom_cons rfl hlo hk
  | cons e m ih =>
    obtain ⟨a, x⟩ := e
    have h' := h
    simp only [Memory.wfFrom, Bool.and_eq_true, decide_eq_true_eq] at h
    unfold Memory.write
    split
    · refine Memory.wfFrom_cons ?_ hlo hk
      simp only [Memory.wfFrom, Bool.and_eq_true, decide_eq_true_eq]
      exact ⟨⟨⟨by omega, h.1.1.2⟩, h.1.2⟩, h.2⟩
    · split
      · rename_i heq
        subst heq
        exact Memory.wfFrom_cons h.2 hlo hk
      · simp only [Memory.wfFrom, Bool.and_eq_true, decide_eq_true_eq]
        exact ⟨h.1, ih h.2 (by omega)⟩

theorem Memory.read_write_self_from {lo k : Nat} {v : Tick} {m : Memory} (h : Memory.wfFrom lo m = true) :
    Memory.read (Memory.write m k v) k = v := by
  induction m generalizing lo with
  | nil => exact Memory.read_cons_self rfl
  | cons e m ih =>
    obtain ⟨a, x⟩ := e
    simp only [Memory.wfFrom, Bool.and_eq_true, decide_eq_true_eq] at h
    unfold Memory.write
    split
    · refine Memory.read_cons_self ?_
      simp only [Memory.wfFrom, Bool.and_eq_true, decide_eq_true_eq]
      exact ⟨⟨⟨by omega, h.1.1.2⟩, h.1.2⟩, h.2⟩
    · split
      · rename_i heq
        subst heq
        exact Memory.read_cons_self h.2
      · rw [Memory.read, if_neg (by omega)]
        exact ih h.2

/-- The canonical form is not needed for entries other than the one written, except where the write removes a listed
entry: then the rest holds no second one for its index. -/
theorem Memory.read_write_of_ne_from {lo k j : Nat} {v : Tick} {m : Memory} (h : Memory.wfFrom lo m = true)
    (hne : j ≠ k) : Memory.read (Memory.write m k v) j = Memory.read m j := by
  induction m generalizing lo with
  | nil => exact Memory.read_cons_of_ne hne
  | cons e m ih =>
    obtain ⟨a, x⟩ := e
    simp only [Memory.wfFrom, Bool.and_eq_true, decide_eq_true_eq] at h
    unfold Memory.write
    split
    · exact Memory.read_cons_of_ne hne
    · split
      · rename_i heq
        subst heq
        rw [Memory.read_cons_of_ne hne, Memory.read, if_neg (by omega)]
      · rw [Memory.read, Memory.read, ih h.2]

/-- A write inside the buffer keeps the canonical form. -/
theorem Memory.wf_write {k : Nat} {v : Tick} {m : Memory} (h : m.wf = true) (hk : k < 40) :
    (Memory.write m k v).wf = true :=
  Memory.wfFrom_write h (Nat.zero_le k) hk

/-- The empty buffer, which reset leaves, is canonical. -/
theorem Memory.wf_nil : Memory.wf [] = true := rfl

/-- A read after a write to the same entry gives the value written. -/
theorem Memory.read_write_self {k : Nat} {v : Tick} {m : Memory} (h : m.wf = true) :
    Memory.read (Memory.write m k v) k = v :=
  Memory.read_write_self_from h

/-- A write leaves every other entry alone. -/
theorem Memory.read_write_of_ne {k j : Nat} {v : Tick} {m : Memory} (h : m.wf = true) (hne : j ≠ k) :
    Memory.read (Memory.write m k v) j = Memory.read m j :=
  Memory.read_write_of_ne_from h hne

end Sys2Proof.Machine
end

