-- ==== Sys2Proof/Laws/State.lean ====
section
/-! SUPPORT. One lemma per field per update, so that no proof unfolds a record update. -/

namespace Sys2Proof.Machine

@[simp] theorem respond_pend (r : Response) (s : State) : (respond r s).pend = s.pend := rfl
@[simp] theorem respond_prise (r : Response) (s : State) : (respond r s).prise = s.prise := rfl
@[simp] theorem respond_dur (r : Response) (s : State) : (respond r s).dur = s.dur := rfl
@[simp] theorem respond_count (r : Response) (s : State) : (respond r s).count = s.count := rfl
@[simp] theorem respond_rvalid (r : Response) (s : State) : (respond r s).rvalid = s.rvalid := rfl
@[simp] theorem respond_result (r : Response) (s : State) : (respond r s).result = s.result := rfl
@[simp] theorem respond_rsp (r : Response) (s : State) : (respond r s).rsp = some r := rfl
@[simp] theorem respond_port (r : Response) (s : State) : (respond r s).port = s.port := rfl
@[simp] theorem respond_cfg (r : Response) (s : State) : (respond r s).cfg = s.cfg := rfl

@[simp] theorem idle_pend (s : State) : (idle s).pend = s.pend := rfl
@[simp] theorem idle_prise (s : State) : (idle s).prise = s.prise := rfl
@[simp] theorem idle_dur (s : State) : (idle s).dur = s.dur := rfl
@[simp] theorem idle_count (s : State) : (idle s).count = s.count := rfl
@[simp] theorem idle_rvalid (s : State) : (idle s).rvalid = s.rvalid := rfl
@[simp] theorem idle_result (s : State) : (idle s).result = s.result := rfl
@[simp] theorem idle_rsp (s : State) : (idle s).rsp = some .nothing := rfl
@[simp] theorem idle_port (s : State) : (idle s).port = s.port := rfl
@[simp] theorem idle_cfg (s : State) : (idle s).cfg = s.cfg := rfl

@[simp] theorem setPendingRise_pend (ts : Tick) (s : State) : (setPendingRise ts s).pend = true := rfl
@[simp] theorem setPendingRise_prise (ts : Tick) (s : State) : (setPendingRise ts s).prise = ts := rfl
@[simp] theorem setPendingRise_dur (ts : Tick) (s : State) : (setPendingRise ts s).dur = s.dur := rfl
@[simp] theorem setPendingRise_count (ts : Tick) (s : State) : (setPendingRise ts s).count = s.count := rfl
@[simp] theorem setPendingRise_rvalid (ts : Tick) (s : State) : (setPendingRise ts s).rvalid = s.rvalid := rfl
@[simp] theorem setPendingRise_result (ts : Tick) (s : State) : (setPendingRise ts s).result = s.result := rfl
@[simp] theorem setPendingRise_rsp (ts : Tick) (s : State) : (setPendingRise ts s).rsp = s.rsp := rfl
@[simp] theorem setPendingRise_port (ts : Tick) (s : State) : (setPendingRise ts s).port = s.port := rfl
@[simp] theorem setPendingRise_cfg (ts : Tick) (s : State) : (setPendingRise ts s).cfg = s.cfg := rfl

@[simp] theorem dropPendingRise_pend (s : State) : (dropPendingRise s).pend = false := rfl
@[simp] theorem dropPendingRise_prise (s : State) : (dropPendingRise s).prise = s.prise := rfl
@[simp] theorem dropPendingRise_dur (s : State) : (dropPendingRise s).dur = s.dur := rfl
@[simp] theorem dropPendingRise_count (s : State) : (dropPendingRise s).count = s.count := rfl
@[simp] theorem dropPendingRise_rvalid (s : State) : (dropPendingRise s).rvalid = s.rvalid := rfl
@[simp] theorem dropPendingRise_result (s : State) : (dropPendingRise s).result = s.result := rfl
@[simp] theorem dropPendingRise_rsp (s : State) : (dropPendingRise s).rsp = s.rsp := rfl
@[simp] theorem dropPendingRise_port (s : State) : (dropPendingRise s).port = s.port := rfl
@[simp] theorem dropPendingRise_cfg (s : State) : (dropPendingRise s).cfg = s.cfg := rfl

@[simp] theorem memWrite_pend (k : Nat) (v : Tick) (s : State) : (memWrite k v s).pend = s.pend := rfl
@[simp] theorem memWrite_prise (k : Nat) (v : Tick) (s : State) : (memWrite k v s).prise = s.prise := rfl
@[simp] theorem memWrite_dur (k : Nat) (v : Tick) (s : State) : (memWrite k v s).dur = Memory.write s.dur k v := rfl
@[simp] theorem memWrite_count (k : Nat) (v : Tick) (s : State) : (memWrite k v s).count = s.count := rfl
@[simp] theorem memWrite_rvalid (k : Nat) (v : Tick) (s : State) : (memWrite k v s).rvalid = s.rvalid := rfl
@[simp] theorem memWrite_result (k : Nat) (v : Tick) (s : State) : (memWrite k v s).result = s.result := rfl
@[simp] theorem memWrite_rsp (k : Nat) (v : Tick) (s : State) : (memWrite k v s).rsp = s.rsp := rfl
@[simp] theorem memWrite_port (k : Nat) (v : Tick) (s : State) : (memWrite k v s).port = s.port := rfl
@[simp] theorem memWrite_cfg (k : Nat) (v : Tick) (s : State) : (memWrite k v s).cfg = s.cfg := rfl

@[simp] theorem clearLive_pend (s : State) : (clearLive s).pend = (s.pend && !s.cfg.clrPend) := rfl
@[simp] theorem clearLive_prise (s : State) : (clearLive s).prise = s.prise := rfl
@[simp] theorem clearLive_dur (s : State) : (clearLive s).dur = s.dur := rfl
@[simp] theorem clearLive_count (s : State) : (clearLive s).count = 0 := rfl
@[simp] theorem clearLive_rvalid (s : State) : (clearLive s).rvalid = s.rvalid := rfl
@[simp] theorem clearLive_result (s : State) : (clearLive s).result = s.result := rfl
@[simp] theorem clearLive_rsp (s : State) : (clearLive s).rsp = s.rsp := rfl
@[simp] theorem clearLive_port (s : State) : (clearLive s).port = s.port := rfl
@[simp] theorem clearLive_cfg (s : State) : (clearLive s).cfg = s.cfg := rfl

@[simp] theorem writeResult_pend (r : ResultRegs) (s : State) : (writeResult r s).pend = s.pend := rfl
@[simp] theorem writeResult_prise (r : ResultRegs) (s : State) : (writeResult r s).prise = s.prise := rfl
@[simp] theorem writeResult_dur (r : ResultRegs) (s : State) : (writeResult r s).dur = s.dur := rfl
@[simp] theorem writeResult_count (r : ResultRegs) (s : State) : (writeResult r s).count = s.count := rfl
@[simp] theorem writeResult_rvalid (r : ResultRegs) (s : State) : (writeResult r s).rvalid = true := rfl
@[simp] theorem writeResult_result (r : ResultRegs) (s : State) : (writeResult r s).result = r := rfl
@[simp] theorem writeResult_rsp (r : ResultRegs) (s : State) : (writeResult r s).rsp = s.rsp := rfl
@[simp] theorem writeResult_port (r : ResultRegs) (s : State) : (writeResult r s).port = s.port := rfl
@[simp] theorem writeResult_cfg (r : ResultRegs) (s : State) : (writeResult r s).cfg = s.cfg := rfl

@[simp] theorem presentWord_pend (w : CommandWord) (s : State) : (presentWord w s).pend = s.pend := rfl
@[simp] theorem presentWord_prise (w : CommandWord) (s : State) : (presentWord w s).prise = s.prise := rfl
@[simp] theorem presentWord_dur (w : CommandWord) (s : State) : (presentWord w s).dur = s.dur := rfl
@[simp] theorem presentWord_count (w : CommandWord) (s : State) : (presentWord w s).count = s.count := rfl
@[simp] theorem presentWord_rvalid (w : CommandWord) (s : State) : (presentWord w s).rvalid = s.rvalid := rfl
@[simp] theorem presentWord_result (w : CommandWord) (s : State) : (presentWord w s).result = s.result := rfl
@[simp] theorem presentWord_rsp (w : CommandWord) (s : State) : (presentWord w s).rsp = s.rsp := rfl
@[simp] theorem presentWord_port (w : CommandWord) (s : State) : (presentWord w s).port = .command w :: s.port := rfl
@[simp] theorem presentWord_cfg (w : CommandWord) (s : State) : (presentWord w s).cfg = s.cfg := rfl

@[simp] theorem applyReset_pend (s : State) : (applyReset s).pend = State.reset.pend := rfl
@[simp] theorem applyReset_prise (s : State) : (applyReset s).prise = State.reset.prise := rfl
@[simp] theorem applyReset_dur (s : State) : (applyReset s).dur = State.reset.dur := rfl
@[simp] theorem applyReset_count (s : State) : (applyReset s).count = State.reset.count := rfl
@[simp] theorem applyReset_rvalid (s : State) : (applyReset s).rvalid = State.reset.rvalid := rfl
@[simp] theorem applyReset_result (s : State) : (applyReset s).result = State.reset.result := rfl
@[simp] theorem applyReset_rsp (s : State) : (applyReset s).rsp = State.reset.rsp := rfl
@[simp] theorem applyReset_port (s : State) : (applyReset s).port = s.port := rfl
@[simp] theorem applyReset_cfg (s : State) : (applyReset s).cfg = s.cfg := rfl

@[simp] theorem appendDuration_pend (d : Tick) (s : State) : (appendDuration d s).pend = s.pend := by
  unfold appendDuration
  split <;> rfl

@[simp] theorem appendDuration_prise (d : Tick) (s : State) : (appendDuration d s).prise = s.prise := by
  unfold appendDuration
  split <;> rfl

theorem appendDuration_dur (d : Tick) (s : State) :
    (appendDuration d s).dur = if hasRoom s.count then Memory.write s.dur s.count.toNat d else s.dur := by
  unfold appendDuration
  split <;> rfl

@[simp] theorem appendDuration_count (d : Tick) (s : State) : (appendDuration d s).count = countPulse s.count := by
  unfold appendDuration
  split <;> rfl

@[simp] theorem appendDuration_rvalid (d : Tick) (s : State) : (appendDuration d s).rvalid = s.rvalid := by
  unfold appendDuration
  split <;> rfl

@[simp] theorem appendDuration_result (d : Tick) (s : State) : (appendDuration d s).result = s.result := by
  unfold appendDuration
  split <;> rfl

@[simp] theorem appendDuration_rsp (d : Tick) (s : State) : (appendDuration d s).rsp = s.rsp := by
  unfold appendDuration
  split <;> rfl

@[simp] theorem appendDuration_port (d : Tick) (s : State) : (appendDuration d s).port = s.port := by
  unfold appendDuration
  split <;> rfl

@[simp] theorem appendDuration_cfg (d : Tick) (s : State) : (appendDuration d s).cfg = s.cfg := by
  unfold appendDuration
  split <;> rfl

@[simp] theorem reset_pend : State.reset.pend = false := rfl
@[simp] theorem reset_prise : State.reset.prise = 0 := rfl
@[simp] theorem reset_dur : State.reset.dur = [] := rfl
@[simp] theorem reset_count : State.reset.count = 0 := rfl
@[simp] theorem reset_rvalid : State.reset.rvalid = false := rfl
@[simp] theorem reset_result : State.reset.result = ResultRegs.reset := rfl
@[simp] theorem reset_rsp : State.reset.rsp = none := rfl
@[simp] theorem reset_port : State.reset.port = [] := rfl
@[simp] theorem reset_cfg : State.reset.cfg = Config.standard := rfl

end Sys2Proof.Machine
end

