-- ==== Sys2Proof/Laws/Ops.lean ====
section
/-! SUPPORT. One lemma per shared operation and one per command, which proofs cite instead of unfolding. -/

namespace Sys2Proof.Machine

theorem memRead_congr {s t : State} (h : s.dur = t.dur) (k : Nat) : memRead k s = memRead k t := by
  unfold memRead
  rw [h]

/-- Appending with room: the entry at `COUNT` is the new duration and every other entry is as before. -/
theorem memRead_appendDuration {d : Tick} {s : State} (hwf : s.dur.wf = true) (hroom : s.count.toNat < 40) (k : Nat) :
    memRead k (appendDuration d s) = if k = s.count.toNat then d else memRead k s := by
  unfold memRead
  rw [appendDuration_dur, if_pos (hasRoom_iff.mpr hroom)]
  split
  · rename_i hk
    rw [hk, Memory.read_write_self hwf]
  · rename_i hk
    exact Memory.read_write_of_ne hwf hk

/-- Appending without room drops the duration. -/
theorem appendDuration_dur_of_full {d : Tick} {s : State} (hfull : 40 ≤ s.count.toNat) :
    (appendDuration d s).dur = s.dur := by
  rw [appendDuration_dur, if_neg (by simpa [hasRoom] using hfull)]

/-- Appending keeps the canonical form of the buffer. -/
theorem appendDuration_dur_wf {d : Tick} {s : State} (hwf : s.dur.wf = true) : (appendDuration d s).dur.wf = true := by
  rw [appendDuration_dur]
  split
  · rename_i hroom
    exact Memory.wf_write hwf (hasRoom_iff.mp hroom)
  · exact hwf

theorem snapshot_getElem (s : State) (k : Nat) (hk : k < 40) : (snapshot s)[k] = memRead k s := by
  simp [snapshot]

/-- Everything taking an input can do. -/
theorem takeInput_cases (s : State) :
    (s.port = [] ∧ takeInput s = none) ∨
      ∃ x rest, s.port = x :: rest ∧ takeInput s = some (x, { s with port := rest }) := by
  unfold takeInput
  cases h : s.port with
  | nil => exact .inl ⟨rfl, rfl⟩
  | cons x rest => exact .inr ⟨x, rest, rfl, rfl⟩

theorem exec_nop (s : State) : exec .nop s = .next (respond .nothing s) := rfl

theorem exec_edgeR (ts : Tick) (s : State) : exec (.edgeR ts) s = .next (respond .nothing (setPendingRise ts s)) := rfl

theorem exec_edgeF_of_pend {ts : Tick} {s : State} (h : s.pend = true) :
    exec (.edgeF ts) s = .next (respond .nothing (closePulse ts s)) := by
  simp [exec, execEdgeF, h]

theorem exec_edgeF_of_not_pend {ts : Tick} {s : State} (h : s.pend = false) :
    exec (.edgeF ts) s = .next (respond .nothing s) := by
  simp [exec, execEdgeF, h]

theorem exec_clear (s : State) : exec .clear s = .next (respond .nothing (clearLive s)) := rfl

theorem exec_poll_of_ready {s : State} (h : s.count.toNat = 40) : exec .poll s = .next (decodePoll s) := by
  simp [exec, execPoll, frameReady_iff.mpr h]

theorem exec_poll_of_not_ready {s : State} (h : s.count.toNat ≠ 40) :
    exec .poll s = .next (respond .notReady s) := by
  have hf : ¬ frameReady s.count = true := fun hr => h (frameReady_iff.mp hr)
  simp [exec, execPoll, hf]

/-- Everything a step can do. -/
theorem step_cases (s : State) :
    (s.port = [] ∧ step s = .next (idle s)) ∨
      (∃ w rest, s.port = .command w :: rest ∧ step s = exec (decodeWord w) { s with port := rest }) ∨
      ∃ rest, s.port = .reset :: rest ∧ step s = .next (applyReset { s with port := rest }) := by
  unfold step
  rcases takeInput_cases s with ⟨hp, ht⟩ | ⟨x, rest, hp, ht⟩
  · exact .inl ⟨hp, by rw [ht]⟩
  · cases x with
    | command w => exact .inr (.inl ⟨w, rest, hp, by rw [ht]⟩)
    | reset => exact .inr (.inr ⟨rest, hp, by rw [ht]⟩)

/-- A run of `k + 1` steps is a step and a run of `k`. -/
theorem core_run_succ {k : Nat} {s t : State} (h : step s = .next t) :
    Sys2Proof.core.run (k + 1) s = Sys2Proof.core.run k t := by
  have hs : Sys2Proof.core.step s = .next t := h
  simp only [Host.Core.run]
  rw [hs]

end Sys2Proof.Machine
end

