-- ==== Sys2Proof/Laws/PerInstr.lean ====
section
/-! SUPPORT. The family `OpcodeMatch` (LAWS.json): the encoded word of a command has the match value of the command's
own row under that row's mask (spec/30_encoding.md R72). -/

namespace Sys2Proof.Laws.OpcodeMatch

/-- Some row of the table has the command's mnemonic and matches its word. -/
def Statement (i : Instr) : Prop :=
  ∃ r ∈ opcodeTable, r.mnemonic = i.mnemonic ∧ r.matches (encode i) = true

theorem nop : Statement .nop := ⟨⟨"NOP", 0, 3⟩, by decide, rfl, by decide⟩

/-- The low three bits of a command word do not depend on the timestamp. -/
theorem commandWord_and_seven (ts : Tick) (lvl : BitVec 1) (op : BitVec 2) :
    commandWord ts lvl op &&& 7 = commandWord 0 lvl op := by
  apply BitVec.eq_of_getLsbD_eq
  intro k hk
  have h7 : (7 : CommandWord).getLsbD k = decide (k < 3) := by
    have : ∀ j : Fin 35, (7 : CommandWord).getLsbD j.val = decide (j.val < 3) := by decide
    exact this ⟨k, hk⟩
  simp only [commandWord, BitVec.getLsbD_and, h7, BitVec.getLsbD_append]
  by_cases h2 : k < 2
  · simp [h2, Nat.lt_succ_of_lt h2]
  · by_cases h3 : k < 3
    · simp [h2, h3, show k - 2 < 1 by omega]
    · simp [h2, h3, show ¬ k - 2 < 1 by omega]

theorem edgeF (ts : Tick) : Statement (.edgeF ts) :=
  ⟨⟨"EDGE.F", 1, 7⟩, by decide, rfl, by
    simp only [OpcodeRow.matches, encode, commandWord_and_seven]
    decide⟩

theorem edgeR (ts : Tick) : Statement (.edgeR ts) :=
  ⟨⟨"EDGE.R", 5, 7⟩, by decide, rfl, by
    simp only [OpcodeRow.matches, encode, commandWord_and_seven]
    decide⟩

theorem clear : Statement .clear := ⟨⟨"CLEAR", 2, 3⟩, by decide, rfl, by decide⟩

theorem poll : Statement .poll := ⟨⟨"POLL", 3, 3⟩, by decide, rfl, by decide⟩

end Sys2Proof.Laws.OpcodeMatch
end

