-- ==== Sys2Proof/Laws/Runs.lean ====
section
/-! SUPPORT. Runs of commands and merges of streams. -/

namespace Sys2Proof.Machine

theorem runCommands_cons {i : Instr} {is : List Instr} {s t : State} (h : exec i s = .next t) :
    runCommands (i :: is) s = runCommands is t := by
  simp [runCommands, h, nextState]

theorem runCommands_append (a b : List Instr) (s : State) :
    runCommands (a ++ b) s = (runCommands a s).bind (runCommands b) := by
  induction a generalizing s with
  | nil => rfl
  | cons i is ih =>
    simp only [List.cons_append, runCommands, Option.bind_assoc]
    congr 1
    funext t
    exact ih t

theorem pulses_append (ps qs : List (Tick × Tick)) : pulses (ps ++ qs) = pulses ps ++ pulses qs := by
  simp [pulses]

theorem lastEdge_concat (is : List Instr) (i : Instr) :
    lastEdge (is ++ [i]) = if i.agent = .edge then some i else lastEdge is := by
  cases i <;> simp [lastEdge, Instr.agent]

theorem liveDurations_congr {s t : State} (hc : s.count = t.count) (hd : s.dur = t.dur) :
    liveDurations s = liveDurations t := by
  simp [liveDurations, memRead, hc, hd]

theorem liveDurations_length (s : State) : (liveDurations s).length = min s.count.toNat 40 := by
  simp [liveDurations]

/-- A stream merged with an empty one is that stream. -/
theorem interleaves_nil_right {α : Type} (e : List α) : Interleaves e [] e := by
  induction e with
  | nil => exact .nil
  | cons x e ih => exact .left ih

end Sys2Proof.Machine
end

