-- ==== Sys2Proof/Laws/Sequencer.lean ====
section
/-! SUPPORT. The host: what a decode answers, what a failed connection allows, and when a cycle starts. -/

namespace Sys2Proof.Machine

/-- The answer of a decoding `POLL` always says that a decode was done. -/
@[simp] theorem decodeResponse_decoded (r : ResultRegs) : (decodeResponse r).decoded = true := by
  unfold decodeResponse
  split <;> rfl

theorem cadenceKept_iff {h : HostTimes} {now : Nat} {last : Option Nat} :
    cadenceKept h now last = true ↔ ∀ t, last = some t → t + h.minCyclePeriod ≤ now := by
  cases last <;> simp [cadenceKept]

/-- After a failed connection no event makes the host do anything. -/
theorem runHost_of_aborted {h : HostTimes} {s : HostState} (hs : s.session = .aborted) (es : List HostEvent) :
    runHost h s es = (s, []) := by
  induction es with
  | nil => rfl
  | cons e es ih => simp [runHost, advance, hs, ih]

end Sys2Proof.Machine
end

