-- ==== Sys2Proof/Laws/Stages.lean ====
section
/-! SUPPORT. One lemma per building block of the decode stages (spec/41 to 44). -/

namespace Sys2Proof.Machine

theorem lesser_cases {w : Nat} (m x : BitVec w) :
    (lesser m x = x ∧ x.toNat < m.toNat) ∨ (lesser m x = m ∧ m.toNat ≤ x.toNat) := by
  unfold lesser
  by_cases h : x.toNat < m.toNat <;> simp [BitVec.ult, h]
  omega

theorem greater_cases {w : Nat} (m x : BitVec w) :
    (greater m x = x ∧ m.toNat < x.toNat) ∨ (greater m x = m ∧ x.toNat ≤ m.toNat) := by
  unfold greater
  by_cases h : m.toNat < x.toNat <;> simp [BitVec.ult, h]
  omega

theorem foldl_lesser_spec {w : Nat} (ds : List (BitVec w)) (d : BitVec w) :
    ds.foldl lesser d ∈ d :: ds ∧ ∀ x ∈ d :: ds, (ds.foldl lesser d).toNat ≤ x.toNat := by
  induction ds generalizing d with
  | nil => simp
  | cons y ds ih =>
    obtain ⟨hmem, hle⟩ := ih (lesser d y)
    simp only [List.foldl_cons, List.mem_cons, forall_eq_or_imp] at hmem hle ⊢
    rcases lesser_cases d y with ⟨he, hlt⟩ | ⟨he, hlt⟩ <;> rw [he] at hmem hle ⊢
    · exact ⟨by tauto, by omega, hle⟩
    · exact ⟨by tauto, hle.1, by omega, hle.2⟩

theorem foldl_greater_spec {w : Nat} (ds : List (BitVec w)) (d : BitVec w) :
    ds.foldl greater d ∈ d :: ds ∧ ∀ x ∈ d :: ds, x.toNat ≤ (ds.foldl greater d).toNat := by
  induction ds generalizing d with
  | nil => simp
  | cons y ds ih =>
    obtain ⟨hmem, hle⟩ := ih (greater d y)
    simp only [List.foldl_cons, List.mem_cons, forall_eq_or_imp] at hmem hle ⊢
    rcases greater_cases d y with ⟨he, hlt⟩ | ⟨he, hlt⟩ <;> rw [he] at hmem hle ⊢
    · exact ⟨by tauto, by omega, hle⟩
    · exact ⟨by tauto, hle.1, by omega, hle.2⟩

/-- `shortest` of a non-empty sequence is one of its elements. -/
theorem shortest_mem {w : Nat} {l : List (BitVec w)} (h : l ≠ []) : shortest l ∈ l := by
  cases l with
  | nil => exact absurd rfl h
  | cons d ds => exact (foldl_lesser_spec ds d).1

/-- `shortest` is at most every element. -/
theorem shortest_le {w : Nat} {l : List (BitVec w)} {x : BitVec w} (hx : x ∈ l) : (shortest l).toNat ≤ x.toNat := by
  cases l with
  | nil => simp at hx
  | cons d ds => exact (foldl_lesser_spec ds d).2 x hx

/-- `longest` of a non-empty sequence is one of its elements. -/
theorem longest_mem {w : Nat} {l : List (BitVec w)} (h : l ≠ []) : longest l ∈ l := by
  cases l with
  | nil => exact absurd rfl h
  | cons d ds => exact (foldl_greater_spec ds d).1

/-- `longest` is at least every element. -/
theorem le_longest {w : Nat} {l : List (BitVec w)} {x : BitVec w} (hx : x ∈ l) : x.toNat ≤ (longest l).toNat := by
  cases l with
  | nil => simp at hx
  | cons d ds => exact (foldl_greater_spec ds d).2 x hx

/-- Twice the threshold does not wrap in `TSW + 1` bits (R168). -/
theorem twiceThreshold_toNat {w : Nat} (a b : BitVec w) : (twiceThreshold a b).toNat = a.toNat + b.toNat := by
  have ha := a.isLt
  have hb := b.isLt
  have hp : 2 ^ (w + 1) = 2 * 2 ^ w := by rw [Nat.pow_succ, Nat.mul_comm]
  rw [twiceThreshold, BitVec.toNat_add, BitVec.toNat_setWidth, BitVec.toNat_setWidth,
    Nat.mod_eq_of_lt (a := a.toNat) (by omega), Nat.mod_eq_of_lt (a := b.toNat) (by omega),
    Nat.mod_eq_of_lt (by omega)]

/-- The comparison of a duration with the threshold is the one of exact numbers (R112). -/
theorem classifyBit_eq {w : Nat} (t2 : BitVec (w + 1)) (d : BitVec w) :
    classifyBit t2 d = decide (t2.toNat < 2 * d.toNat) := by
  have hd := d.isLt
  have hp : 2 ^ (w + 1) = 2 * 2 ^ w := by rw [Nat.pow_succ, Nat.mul_comm]
  have h2 : (2 * d.setWidth (w + 1)).toNat = 2 * d.toNat := by
    have hpos : 0 < 2 ^ w := Nat.two_pow_pos w
    rw [BitVec.toNat_mul, BitVec.toNat_setWidth, show (2 : BitVec (w + 1)).toNat = 2 % 2 ^ (w + 1) from rfl,
      Nat.mod_eq_of_lt (a := d.toNat) (by omega)]
    rcases Nat.eq_zero_or_pos w with hw | hw
    · subst hw
      have : d.toNat = 0 := by omega
      rw [this]
      rfl
    · have h4 : 2 ≤ 2 ^ w := by
        calc 2 = 2 ^ 1 := rfl
          _ ≤ 2 ^ w := Nat.pow_le_pow_right (by omega) hw
      rw [Nat.mod_eq_of_lt (a := 2) (by omega), Nat.mod_eq_of_lt (by omega)]
  rw [classifyBit, BitVec.ult, h2]

/-- Shifting a bit in doubles the byte modulo 256 and adds the bit (R125). -/
theorem shiftIn_toNat (sr : Byte) (bit : Bool) : (shiftIn sr bit).toNat = (2 * sr.toNat + bit.toNat) % 256 := by
  revert sr
  cases bit <;> decide

/-- A reading never wraps in 12 bits (R147). -/
theorem tenths_toNat (a b : Byte) : (tenths a b).toNat = 10 * a.toNat + b.toNat := by
  have ha := a.isLt
  have hb := b.isLt
  rw [tenths, BitVec.toNat_add, BitVec.toNat_mul, BitVec.toNat_setWidth, BitVec.toNat_setWidth, BitVec.toNat_ofNat,
    show Config.decScale % 2 ^ 12 = 10 from rfl]
  omega

end Sys2Proof.Machine
end

