-- ==== Sys2Proof/Tests/Slice0.lean ====
section
/-! SUPPORT. Tests. Expected values are those of spec/95_test_vectors.md (the vector is named) or of the rule named;
words are written out from the layout of spec/30_encoding.md R70. The last part gives, for each statement with
hypotheses, a concrete case that meets them. -/

namespace Sys2Proof.Tests

open Sys2Proof.Machine

/-! ### Well-formedness: one ill-formed line for each bound of R79 and R80 -/

theorem test_wf_timestamp_too_wide : SourceLine.wellFormed (.edgeR 4294967296) = false := by decide
theorem test_wf_fall_timestamp_too_wide : SourceLine.wellFormed (.edgeF 4294967296) = false := by decide
theorem test_wf_largest_timestamp : SourceLine.wellFormed (.edgeR 4294967295) = true := by decide
theorem test_wf_pulse_start : SourceLine.wellFormed (.pulse 4294967296 1) = false := by decide
theorem test_wf_pulse_width : SourceLine.wellFormed (.pulse 1 4294967296) = false := by decide
theorem test_wf_frame_gap : SourceLine.wellFormed (.frame 0 30 70 4294967296 0 0 0 0 0) = false := by decide
theorem test_wf_frame_byte : SourceLine.wellFormed (.frame 0 30 70 50 0 0 0 0 256) = false := by decide
theorem test_wf_every_command_is_legal : Instr.wellFormed (.edgeF 4294967295) = true := by decide

/-! ### Decoding: words written out bit by bit, `ts` then `lvl` then `op` (R70) -/

theorem test_decode_nop : decodeWord 0b00000000000000000000000000000000_0_00 = .nop := by decide
theorem test_decode_edgeF_1030 : decodeWord 0b00000000000000000000010000000110_0_01 = .edgeF 1030 := by decide
theorem test_decode_edgeR_1000 : decodeWord 0b00000000000000000000001111101000_1_01 = .edgeR 1000 := by decide
theorem test_decode_clear : decodeWord 0b00000000000000000000000000000000_0_10 = .clear := by decide
theorem test_decode_poll : decodeWord 0b00000000000000000000000000000000_0_11 = .poll := by decide
/-- The top bit of `ts` is bit 34 of the word. -/
theorem test_decode_top_timestamp_bit : decodeWord 0b10000000000000000000000000000000_1_01 = .edgeR 0x80000000 := by decide
/-- REC-5. -/
theorem test_decode_REC_5 : decodeWord 0x7FFFFFF85 = .edgeR 0xFFFFFFF0 := by decide
/-- CTL-11, CTL-12: ignored fields. -/
theorem test_decode_CTL_11 : decodeWord 0x7FFFFFFFF = .poll := by decide
theorem test_decode_CTL_12 : decodeWord 0x00000000E = .clear := by decide
theorem test_decode_nop_ignores_fields : decodeWord 0b11111111111111111111111111111111_1_00 = .nop := by decide
theorem test_encode_R79 : encode (.edgeR 1000) = 0x000001F45 ∧ encode (.edgeF 1030) = 0x000002031 := by decide
theorem test_table_words :
    decodeTableWord 40 0x1F45 = some (.edgeR 1000) ∧ decodeTableWord 35 3 = some .poll ∧
      decodeTableWord 40 (2 ^ 35) = none := by decide

/-! ### States to test on -/

/-- A state that has recorded the given durations since the last clear (41 for any more than 40). -/
def recorded (durs : List Tick) : State :=
  { State.reset with
    dur := (durs.take 40).zipIdx.foldl (fun m dk => Memory.write m dk.2 dk.1) []
    count := BitVec.ofNat 6 (min durs.length 41) }

/-- The durations of vector CLS-1: 30 for a 0, 70 for a 1, for the bytes 60, 0, 25, 3, 88. -/
def sourceFrame : Vector Tick 40 := frameWidths 30 70 #v[60, 0, 25, 3, 88]

/-- The state before the `POLL` of CTL-4. -/
def fullState : State := recorded sourceFrame.toList

/-- The state after a command, where there is one. -/
def after (i : Instr) (s : State) : Option State := nextState (exec i s)

/-! ### Commands -/

theorem test_REC_1 : (after (.edgeR 1000) State.reset).map (fun t => (t.pend, t.prise, t.count, status t, t.rsp)) =
    some (true, 1000, 0, 0x100, some .nothing) := by decide
/-- REC-4: a second rise overwrites. -/
theorem test_REC_4 : (after (.edgeR 200) { State.reset with pend := true, prise := 100 }).map State.prise = some 200 := by
  decide
theorem test_REC_3 : after (.edgeF 500) State.reset = some { State.reset with rsp := some .nothing } := by decide
/-- REC-5, REC-9: the difference wraps and is unsigned. -/
theorem test_REC_5 : (after (.edgeF 0x0000000E) { State.reset with pend := true, prise := 0xFFFFFFF0 }).map
    (fun t => (memRead 0 t, t.count, t.pend, status t)) = some (30, 1, false, 0x001) := by decide
theorem test_REC_9 : (after (.edgeF 4) { State.reset with pend := true, prise := 5 }).map (memRead 0) =
    some 0xFFFFFFFF := by decide
theorem test_NOP : after .nop fullState = some { fullState with rsp := some .nothing } := by decide
/-- CTL-8, CTL-9: a pending rise across `CLEAR` for both values of `CLR_PEND`. -/
theorem test_CTL_8 : (after .clear { recorded (List.replicate 17 9) with pend := true, prise := 5000 }).map
    (fun t => (t.count, t.pend, t.prise, status t)) = some (0, true, 5000, 0x100) := by decide
theorem test_CTL_9 : (after .clear { recorded (List.replicate 17 9) with pend := true, cfg := ⟨true⟩ }).map
    (fun t => (t.count, t.pend, status t)) = some (0, false, 0x000) := by decide
/-- CTL-4 with CLS-1, PCK-1, CHK-1. -/
theorem test_CTL_4 : (after .poll fullState).map (fun t => (t.rsp, t.count, t.rvalid, reading t)) =
    some (some .ok, 0, true, some 0x030FD258) := by decide +kernel
theorem test_CTL_4_registers : (after .poll fullState).map
    (fun t => (t.result.dmin, t.result.dmax, t.result.bytes.toList, t.result.sum)) =
    some (30, 70, [60, 0, 25, 3, 88], 88) := by decide +kernel
/-- CTL-3 and CTL-6: 39 and 41 are not decoded. -/
theorem test_CTL_3_CTL_6 :
    (after .poll (recorded (List.replicate 39 26))).map (fun t => (t.rsp, t.count, status t)) =
        some (some .notReady, 39, 0x027) ∧
      (after .poll (recorded (List.replicate 41 26))).map (fun t => (t.rsp, t.count, status t)) =
        some (some .notReady, 41, 0x0A9) := by decide
/-- REC-8: the 41st pulse is counted and dropped. -/
theorem test_REC_8 : (after (.edgeF 4050) { recorded (List.replicate 40 10) with pend := true, prise := 4000 }).map
    (fun t => (t.count, t.pend, status t, t.dur == (recorded (List.replicate 40 10)).dur)) =
    some (41, false, 0x0A9, true) := by decide

/-! ### Stages -/

/-- CLS-5: unsigned order and the 33-bit compare. -/
theorem test_CLS_5 : (classify (Vector.ofFn fun k : Fin 40 =>
      if k.val = 1 then 0xFFFFFFFF else if k.val = 2 then 0xBFFFFFFF else if k.val = 3 then 0xC0000000
      else if k.val = 4 then 0x80000000 else (0x7FFFFFFF : Tick))).2.2.toList =
    [false, true, false, true, false, false, false, false] ++ List.replicate 32 false := by decide +kernel
/-- PCK-2. -/
theorem test_PCK_2 : (pack (frameBits #v[128, 64, 32, 16, 8])).toList = [128, 64, 32, 16, 8] ∧
    frame40 (frameBits #v[128, 64, 32, 16, 8]) = 0x8040201008 := by decide
/-- PCK-4, from its bits. -/
theorem test_PCK_4 : packByte [true, false, true, false, true, false, true, false] = 170 ∧
    packByte [true, true, false, false, false, false, true, true] = 195 := by decide
/-- CHK-2, CHK-7. -/
theorem test_CHK : check #v[255, 255, 255, 255, 252] = (252, true) ∧ check #v[45, 7, 22, 9, 200] = (83, false) := by
  decide
theorem test_CNV : convert #v[255, 255, 255, 255, 252] = (2805, 2805) ∧ convert #v[200, 100, 0, 0, 44] = (2100, 0) := by
  decide

/-! ### Steps, the stream syntax, the host -/

theorem test_step_takes_one_input :
    (nextState (step { State.reset with port := [.command 0x1F45, .reset] })).map (fun t => (t.prise, t.port)) =
      some (1000, [.reset]) := by decide
theorem test_step_reset_input :
    nextState (step { fullState with pend := true, rvalid := true, port := [.reset], cfg := ⟨true⟩ }) =
      some { State.reset with cfg := ⟨true⟩ } := by decide
theorem test_assemble_R79 :
    assembleLine "EDGE.R 1000   ; same as onEdge".toList = .ok [.edgeR 1000] ∧
      assembleLine "EDGE.F 0x0000000E".toList = .ok [.edgeF 14] := by decide
theorem test_assemble_rejects : assembleLine "EDGE.R 4294967296".toList = .error .operandOutOfRange ∧
    assembleLine "EDGE.R".toList = .error .badLine := by decide
/-- P1: the first pulses of its frame. -/
theorem test_P1_frame : (frame 1000 30 70 50 #v[60, 0, 25, 3, 88]).take 6 =
    [.edgeR 1000, .edgeF 1030, .edgeR 1080, .edgeF 1110, .edgeR 1160, .edgeF 1230] := by decide
theorem test_idle_R195 : nextState (step fullState) = some { fullState with rsp := some .nothing } := by decide

/-- A booted host in a phase. -/
def booted (p : Phase) : HostState := ⟨.running, p, some 100⟩

theorem test_boot_R212 : bootActions true = [.resetBlock, .connect, .call .registerEdgeCallback] ∧
    inputsOf (bootActions false) = [.reset] ∧ (advance ⟨18000, 40, 2000000⟩ HostState.initial (.boot false)).1.session =
      .aborted := by decide
/-- R212 step 4 and R191: `CLEAR`, then the start pulse. -/
theorem test_start_R212 : (advance ⟨18000, 40, 2000000⟩ (booted .idle) (.start 2000100)).2 =
    [.send .clear, .call (.setLineMode .output), .call (.writeLine .low), .call (.hold 18000), .call (.writeLine .high),
      .call (.hold 40), .call (.setLineMode .input)] := by decide
theorem test_cadence_R212 : advance ⟨18000, 40, 2000000⟩ (booted .idle) (.start 2000099) = (booted .idle, []) := by decide
theorem test_released_R164 : (advance ⟨18000, 40, 2000000⟩ (booted .awaitingStart) .released).2 = [.send .clear] := by decide

/-! ### Witnesses: cases that meet the hypotheses of the statements -/

theorem witness_DecodeAndEncodeAgree : (Instr.edgeR 1000).wellFormed = true := by decide
theorem witness_DecodeAndEncodeAgree_wide : 2 ^ 35 ≤ 2 ^ 35 + 3 := by decide
theorem witness_EveryWordIsLegal_widest : 2 ^ 35 - 1 < 2 ^ 35 := by decide
theorem witness_EveryWordIsLegal : (3 : BitVec 2) ≠ 1 := by decide
theorem witness_StepRunsTheNextInput_command :
    ({ State.reset with port := [.command 3, .reset] } : State).port = .command 3 :: [.reset] := rfl
theorem witness_StepRunsTheNextInput_reset :
    ({ State.reset with port := [.reset] } : State).port = .reset :: [] := rfl
theorem witness_StepRunsTheNextInput_none : State.reset.port = [] := rfl
theorem witness_PlacedWordIsExecutedNext : decodeTableWord 40 0x2031 = some (.edgeF 1030) := by decide
theorem witness_PortWordsRunInOrder :
    ({ State.reset with port := [.command 2, .command 3, .reset] } : State).port =
      [(2 : CommandWord), 3].map Input.command ++ [.reset] := rfl

theorem witness_ErrorKind_incomplete : meetsErrorKind .incompleteFrame .poll (recorded (List.replicate 39 7)) = true := by
  decide
theorem witness_ErrorKind_over_poll : meetsErrorKind .overCount .poll (recorded (List.replicate 41 7)) = true := by decide
theorem witness_ErrorKind_over_fall :
    meetsErrorKind .overCount (.edgeF 1) { recorded (List.replicate 40 7) with pend := true } = true := by decide
theorem witness_ErrorKind_checksum :
    meetsErrorKind .checksumMismatch .poll (recorded (frameWidths 26 72 #v[45, 7, 22, 9, 200]).toList) = true := by
  decide +kernel
theorem witness_ErrorKind_malformed : meetsErrorKind .malformedEdgeOrder (.edgeF 500) State.reset = true := by decide

/-- The clauses of `FallingEdgeClosesThePendingPulse`: no pending rise, and a pending rise at the edges 0, 39, 40, 41 of
the ranges of `COUNT`. -/
theorem witness_FallingEdge_idle : fullState.dur.wf = true ∧ fullState.pend = false := by decide
theorem witness_FallingEdge_room :
    let s := { recorded (List.replicate 39 7) with pend := true }
    s.dur.wf = true ∧ s.pend = true ∧ s.count.toNat < 40 := by decide
theorem witness_FallingEdge_full :
    let s := { recorded (List.replicate 40 7) with pend := true }
    s.dur.wf = true ∧ s.pend = true ∧ 40 ≤ s.count.toNat := by decide
theorem witness_FallingEdge_over :
    let s := { recorded (List.replicate 41 7) with pend := true }
    s.dur.wf = true ∧ s.pend = true ∧ 40 ≤ s.count.toNat := by decide
theorem witness_FallingEdge_empty :
    let s := { State.reset with pend := true }
    s.dur.wf = true ∧ s.pend = true ∧ s.count.toNat < 40 := by decide

theorem witness_LastEdge_none : State.reset.cfg.clrPend = false ∧ lastEdge [.clear, .nop] = none := by decide
theorem witness_LastEdge_rise :
    State.reset.cfg.clrPend = false ∧ lastEdge [.edgeF 1, .edgeR 5, .clear] = some (.edgeR 5) := by decide
theorem witness_LastEdge_fall :
    State.reset.cfg.clrPend = false ∧ lastEdge [.edgeR 5, .edgeF 9, .poll] = some (.edgeF 9) := by decide
theorem witness_LiveSequence : (recorded [30, 0, 70]).dur.wf = true := by decide
theorem witness_LiveSequence_holds_zero : liveDurations (recorded [30, 0, 70]) = [30, 0, 70] := by decide
theorem witness_OverCount :
    (recorded (List.replicate 41 7)).count.toNat = 41 ∧ Instr.clear ∉ [Instr.poll, .edgeR 1, .edgeF 2] := by decide
theorem witness_DegenerateFrame :
    (recorded (List.replicate 40 50)).count.toNat = 40 ∧ ∀ k < 40, memRead k (recorded (List.replicate 40 50)) = 50 := by
  decide
theorem witness_ClassifierSplits_low : (sourceFrame[0] : Tick) = (classify sourceFrame).1 := by decide +kernel
theorem witness_ClassifierSplits_high :
    (classify sourceFrame).1 ≠ (classify sourceFrame).2.1 ∧ sourceFrame[2] = (classify sourceFrame).2.1 := by decide +kernel
theorem witness_ClassifierSplits_monotone :
    sourceFrame[2].toNat ≤ sourceFrame[3].toNat ∧ (classify sourceFrame).2.2[2] = true := by decide +kernel
theorem witness_ClassifierSplits_degenerate :
    ∀ k : Fin 40, (classify (Vector.replicate 40 (50 : Tick))).2.2[k] = false := by decide +kernel
/-- CLS-8: scale 3, offset 100. -/
theorem witness_ClassifierIgnoresScaleAndOffset :
    0 < 3 ∧ ∀ k : Fin 40, (Vector.ofFn fun j : Fin 40 => 3 * sourceFrame[j] + 100)[k].toNat =
      3 * sourceFrame[k].toNat + 100 := by decide
theorem witness_ShiftRegister : (List.replicate 8 true).length = 8 := by decide
theorem witness_Accumulator :
    [(3 : Byte), 25, 0, 60].Perm [#v[(60 : Byte), 0, 25, 3, 88][0], #v[(60 : Byte), 0, 25, 3, 88][1],
      #v[(60 : Byte), 0, 25, 3, 88][2], #v[(60 : Byte), 0, 25, 3, 88][3]] := by decide
theorem witness_Converter_single_digits :
    let b : Vector Byte 5 := #v[255, 9, 0, 0, 8]
    b[1].toNat ≤ 9 ∧ b[3].toNat ≤ 9 := by decide
theorem witness_Converter_larger_decimals :
    let b : Vector Byte 5 := #v[200, 10, 0, 255, 8]
    9 < b[1].toNat ∧ 9 < b[3].toNat := by decide
theorem witness_Clear_drops : ({ State.reset with cfg := ⟨true⟩ } : State).cfg.clrPend = true := rfl
theorem witness_Clear_keeps : State.reset.cfg.clrPend = false := rfl
theorem witness_Poll_ready : fullState.count.toNat = 40 := by decide
theorem witness_Poll_ready_bad_checksum :
    (decodeFrame (snapshot (recorded (frameWidths 26 72 #v[45, 7, 22, 9, 200]).toList))).valid = false := by decide +kernel
theorem witness_Poll_not_ready :
    (recorded (List.replicate 39 7)).count.toNat ≠ 40 ∧ (recorded (List.replicate 41 7)).count.toNat ≠ 40 := by decide
theorem witness_BothClears : fullState.count.toNat = 40 := by decide
theorem witness_DecodeDependsOnlyOnTheDurations :
    let s' := { fullState with pend := true, prise := 9, rvalid := true }
    fullState.count.toNat = 40 ∧ s'.count.toNat = 40 ∧ ∀ k < 40, memRead k fullState = memRead k s' := by decide
theorem witness_Response_not_ready : Instr.poll = .poll ∧ State.reset.count.toNat ≠ 40 := by decide
theorem witness_Reading_held : ({ State.reset with rvalid := true } : State).rvalid = true := rfl
theorem witness_Reading_not_held : State.reset.rvalid = false := rfl
theorem witness_Registers_pend_cleared :
    let s := { State.reset with pend := true, cfg := ⟨true⟩ }
    (after .clear s).map (fun t => t.pend != s.pend) = some true := by decide
/-- A frame that the last decode can have come from: R36 (c) has instances. -/
theorem witness_DecodesTo : DecodesTo (Vector.replicate 40 50) { ResultRegs.reset with dmin := 50, dmax := 50, valid := true } where
  dmin_le := by decide
  dmin_mem := ⟨0, by decide⟩
  le_dmax := by decide
  dmax_mem := ⟨0, by decide⟩
  bit := by decide
  byte := by decide
  sum := by decide
  valid := by decide
  hum := by decide
  temp := by decide
/-- The invariants are met by a state that no reset leaves: 41 pulses, a result held. -/
theorem witness_Inv : Inv { recorded (List.replicate 41 50) with
    rvalid := true, result := { ResultRegs.reset with dmin := 50, dmax := 50, valid := true } } where
  count_le := by decide
  dur_wf := by decide
  result_decodes := fun _ => ⟨_, witness_DecodesTo⟩
theorem witness_Reset_input : ({ fullState with port := [.reset] } : State).port = .reset :: [] := rfl
theorem witness_Reset_drops_result :
    (nextState (step { State.reset with rvalid := true, port := [.reset] })).map State.rvalid = some false := by decide
theorem witness_Reset_leaves_over_count :
    (recorded (List.replicate 41 7)).count.toNat = 41 ∧
      (nextState (step { recorded (List.replicate 41 7) with port := [.command 2] })).map (fun t => t.count.toNat) =
        some 0 := by decide
theorem witness_PendingRiseAcrossAClear :
    State.reset.dur.wf = true ∧ State.reset.cfg.clrPend = false ∧
      ({ State.reset with cfg := ⟨true⟩ } : State).cfg.clrPend = true := by decide
theorem witness_PulsesFill : fullState.dur.wf = true := by decide
theorem witness_PollOnEitherSide :
    let s := { recorded (List.replicate 39 7) with pend := true }
    s.dur.wf = true ∧ s.pend = true ∧ s.count.toNat = 39 := by decide
/-- A merge of 40 pulses with one `POLL` and one `NOP` before them. -/
theorem witness_EveryInterleaving :
    fullState.dur.wf = true ∧ (∀ i ∈ [Instr.poll, .nop], i = .nop ∨ i = .poll) ∧
      Interleaves (pulses (Vector.replicate 40 ((9, 30) : Tick × Tick)).toList) [.poll, .nop]
        (.poll :: .nop :: pulses (Vector.replicate 40 ((9, 30) : Tick × Tick)).toList) :=
  ⟨by decide, by decide, .right (.right (interleaves_nil_right _))⟩
theorem witness_FrameRoundTrip :
    fullState.dur.wf = true ∧ (30 : Tick).toNat < (70 : Tick).toNat ∧
      (#v[60, 0, 25, 3, 88] : Vector Byte 5) ≠ #v[0xFF, 0xFF, 0xFF, 0xFF, 0xFF] := by decide
theorem witness_RegistersRefine :
    (recorded (List.replicate 41 7)).dur.wf = true ∧ (recorded (List.replicate 41 7)).count.toNat ≤ 41 := by decide
/-- Two different states that differ only in what has no value. -/
theorem witness_Unspecified :
    let t : State := { State.reset with prise := 7, dur := [(3, 9)], result := { ResultRegs.reset with sum := 1 } }
    t ≠ State.reset ∧ State.reset.dur.wf = true ∧ t.dur.wf = true ∧ SameUpToUnspecified State.reset t :=
  ⟨by decide, by decide, by decide,
    { pend := rfl, prise := fun h => absurd h (by decide), count := rfl,
      dur := fun k hk => absurd hk (Nat.not_lt_zero k), rvalid := rfl, result := fun h => absurd h (by decide),
      rsp := rfl, port := rfl, cfg := rfl }⟩
theorem witness_BufferIsCanonical : Memory.wf [(0, 30), (39, 70)] = true ∧ (39 : Nat) < 40 := by decide
theorem witness_BufferIsCanonical_same :
    Memory.wf (Memory.write [] 3 9) = true ∧ ∀ k < 40, Memory.read (Memory.write [] 3 9) k = Memory.read [(3, 9)] k := by
  decide
theorem witness_Sequencer_completes :
    (advance ⟨18000, 40, 2000000⟩ (booted .collecting) (.answered .csumErr)).1.phase = .complete := by decide
theorem witness_HostFollowsTheBootOrder_sends :
    .send .poll ∈ (advance ⟨18000, 40, 2000000⟩ (booted .collecting) .timer).2 := by decide
theorem witness_HostFollowsTheBootOrder_boot :
    ({ fullState with port := [.reset, .command 2] } : State).port = inputsOf (bootActions true) ++ [.command 2] := by decide
/-- The cadence at its bound, 2000000 after the start at 100, and one microsecond before it. -/
theorem witness_HostFollowsTheBootOrder_cadence :
    (∀ t, some 100 = some t → t + 2000000 ≤ 2000100) ∧ (some 100 = some 100 ∧ 2000099 < 100 + 2000000) :=
  ⟨fun t h => by cases h; decide, by decide⟩

end Sys2Proof.Tests
end

/-! PROOFS. The statements of spec/10_state.md: what the decode stages put into the result registers (R27), the abstract
form of every operation (R21), and reset (R40). -/

namespace Sys2Proof.Machine

/-! ### The decode stages, in exact arithmetic (R36 (c)) -/

theorem classify_dmin_le {w : Nat} (d : Vector (BitVec w) 40) (k : Fin 40) :
    (classify d).1.toNat ≤ d[k].toNat :=
  shortest_le (by simp)

theorem le_classify_dmax {w : Nat} (d : Vector (BitVec w) 40) (k : Fin 40) :
    d[k].toNat ≤ (classify d).2.1.toNat :=
  le_longest (by simp)

theorem exists_fin_getElem_of_mem {α : Type} {n : Nat} {v : Vector α n} {x : α} (h : x ∈ v.toList) :
    ∃ k : Fin n, v[k] = x := by
  obtain ⟨k, hk, rfl⟩ := Vector.getElem_of_mem (Vector.mem_toList_iff.mp h)
  exact ⟨⟨k, hk⟩, rfl⟩

/-- The 40 durations are not the empty sequence, so both extremes are among them (R116). -/
theorem toList_ne_nil_of_forty {α : Type} (v : Vector α 40) : v.toList ≠ [] :=
  List.ne_nil_of_length_pos (by simp)

theorem classify_dmin_mem {w : Nat} (d : Vector (BitVec w) 40) : ∃ k : Fin 40, d[k] = (classify d).1 :=
  exists_fin_getElem_of_mem (shortest_mem (toList_ne_nil_of_forty d))

theorem classify_dmax_mem {w : Nat} (d : Vector (BitVec w) 40) : ∃ k : Fin 40, d[k] = (classify d).2.1 :=
  exists_fin_getElem_of_mem (longest_mem (toList_ne_nil_of_forty d))

theorem classify_bit {w : Nat} (d : Vector (BitVec w) 40) (k : Fin 40) :
    (classify d).2.2[k] = decide ((classify d).1.toNat + (classify d).2.1.toNat < 2 * d[k].toNat) := by
  simp [classify, classifyBit_eq, twiceThreshold_toNat]

/-- Shifting a group in is reading it as a binary number, most significant bit first, modulo 256. -/
theorem foldl_shiftIn_toNat (group : List Bool) (sr : Byte) :
    (group.foldl shiftIn sr).toNat = group.foldl (fun n b => 2 * n + b.toNat) sr.toNat % 256 := by
  induction group using List.reverseRecOn with
  | nil => exact (Nat.mod_eq_of_lt sr.isLt).symm
  | append_singleton group b ih =>
    rw [List.foldl_concat, List.foldl_concat, shiftIn_toNat, ih]
    omega

theorem packByte_toNat {group : List Bool} (h : group.length = 8) :
    (packByte group).toNat = ∑ j : Fin 8, group[j].toNat * 2 ^ (7 - j.val) := by
  match group, h with
  | [b0, b1, b2, b3, b4, b5, b6, b7], _ =>
    have hbit : ∀ b ∈ [b0, b1, b2, b3, b4, b5, b6, b7], b.toNat ≤ 1 := fun b _ => Bool.toNat_le b
    simp only [List.forall_mem_cons] at hbit
    rw [packByte, foldl_shiftIn_toNat, Fin.sum_univ_eight]
    simp
    omega

theorem pack_toNat (bits : Vector Bool 40) (g : Fin 5) :
    (pack bits)[g].toNat = ∑ j : Fin 8, bits[8 * g.val + j.val].toNat * 2 ^ (7 - j.val) := by
  have hpack : (pack bits)[g] = packByte (bitGroup bits g) := by simp [pack]
  rw [hpack, packByte_toNat (by simp [bitGroup])]
  simp only [bitGroup, Fin.getElem_fin, List.getElem_ofFn]

theorem checksum_toNat (bytes : Vector Byte 5) :
    (checksum bytes).toNat = (bytes[0].toNat + bytes[1].toNat + bytes[2].toNat + bytes[3].toNat) % 256 := by
  simp [checksum, BitVec.toNat_add]

/-- The four stages in a row meet R36 (c) for every snapshot. -/
theorem decodesTo_decodeFrame (d : Vector Tick 40) : DecodesTo d (decodeFrame d) where
  dmin_le := classify_dmin_le d
  dmin_mem := classify_dmin_mem d
  le_dmax := le_classify_dmax d
  dmax_mem := classify_dmax_mem d
  bit := classify_bit d
  byte := pack_toNat (classify d).2.2
  sum := checksum_toNat (pack (classify d).2.2)
  valid := rfl
  hum := tenths_toNat _ _
  temp := tenths_toNat _ _

/-! ### The compound operations of a falling edge and of a decoding `POLL`, field by field -/

@[simp] theorem closePulse_rvalid (ts : Tick) (s : State) : (closePulse ts s).rvalid = s.rvalid := by
  simp [closePulse]

@[simp] theorem closePulse_result (ts : Tick) (s : State) : (closePulse ts s).result = s.result := by
  simp [closePulse]

@[simp] theorem decodePoll_rvalid (s : State) : (decodePoll s).rvalid = true := rfl

@[simp] theorem decodePoll_rsp (s : State) :
    (decodePoll s).rsp = some (decodeResponse (decodeFrame (snapshot s))) := rfl

/-! ### The result registers and their outputs (R27) -/

theorem resultOutputs_of_rvalid {s : State} (h : s.rvalid = true) : resultOutputs s = some s.result := by
  simp [resultOutputs, h]

theorem resultOutputs_of_not_rvalid {s : State} (h : s.rvalid = false) : resultOutputs s = none := by
  simp [resultOutputs, h]

/-- The frame of the result group: it survives every command but a decoding `POLL`. -/
theorem exec_keeps_result {i : Instr} {s : State} (h : ¬ (i = .poll ∧ s.count.toNat = 40)) :
    ∃ t, exec i s = .next t ∧ t.rvalid = s.rvalid ∧ t.result = s.result := by
  cases i with
  | nop => exact ⟨_, exec_nop s, rfl, rfl⟩
  | edgeR ts => exact ⟨_, exec_edgeR ts s, rfl, rfl⟩
  | edgeF ts =>
    cases hp : s.pend with
    | false => exact ⟨_, exec_edgeF_of_not_pend hp, rfl, rfl⟩
    | true => exact ⟨_, exec_edgeF_of_pend hp, by simp, by simp⟩
  | clear => exact ⟨_, exec_clear s, rfl, rfl⟩
  | poll => exact ⟨_, exec_poll_of_not_ready fun hc => h ⟨rfl, hc⟩, rfl, rfl⟩

/-- Settles O36: a decoding `POLL` writes `decodeFrame` of the snapshot, every other command keeps the result group. -/
theorem onlyADecodingPollWritesResults : Obligations.OnlyADecodingPollWritesResults := by
  refine ⟨fun i s => ?_, fun s => ⟨resultOutputs_of_not_rvalid, resultOutputs_of_not_rvalid rfl⟩⟩
  by_cases h : i = .poll ∧ s.count.toNat = 40
  · obtain ⟨rfl, hcount⟩ := h
    refine ⟨_, exec_poll_of_ready hcount, fun hn => absurd ⟨rfl, hcount⟩ hn, fun _ => ?_⟩
    exact ⟨resultOutputs_of_rvalid (decodePoll_rvalid s), snapshot s, fun k => snapshot_getElem s k.val k.isLt,
      decodesTo_decodeFrame (snapshot s)⟩
  · obtain ⟨t, hexec, hkeep⟩ := exec_keeps_result h
    exact ⟨t, hexec, fun _ => hkeep, fun hp => absurd hp h⟩

/-! ### The live sequence -/

theorem liveDurations_getElem (s : State) (k : Nat) (hk : k < (liveDurations s).length) :
    (liveDurations s)[k] = memRead k s := by
  simp [liveDurations]

theorem liveDurations_appendDuration_of_room {d : Tick} {s : State} (hwf : s.dur.wf = true)
    (hroom : s.count.toNat < 40) : liveDurations (appendDuration d s) = liveDurations s ++ [d] := by
  have hkeep : ∀ k ∈ List.range s.count.toNat, memRead k (appendDuration d s) = memRead k s := fun k hk => by
    rw [memRead_appendDuration hwf hroom, if_neg (List.mem_range.mp hk).ne]
  have hnew : memRead s.count.toNat (appendDuration d s) = d := by
    rw [memRead_appendDuration hwf hroom, if_pos rfl]
  rw [liveDurations, liveDurations, appendDuration_count, countPulse_toNat, if_pos hroom,
    Nat.min_eq_left hroom, Nat.min_eq_left hroom.le, List.range_succ, List.map_append, List.map_singleton, hnew,
    List.map_congr_left hkeep]

theorem liveDurations_appendDuration_of_full {d : Tick} {s : State} (hfull : 40 ≤ s.count.toNat) :
    liveDurations (appendDuration d s) = liveDurations s := by
  rw [liveDurations, liveDurations, appendDuration_count, countPulse_toNat, if_neg hfull.not_gt,
    Nat.min_eq_right hfull, Nat.min_eq_right (by decide)]
  exact List.map_congr_left fun k _ => memRead_congr (appendDuration_dur_of_full hfull) k

/-- At `COUNT = 40` the live sequence is the snapshot `POLL` decodes (R54). -/
theorem liveDurations_toVector {s : State} (h : (liveDurations s).length = 40) :
    (⟨(liveDurations s).toArray, by simp [h]⟩ : Vector Tick 40) = snapshot s := by
  apply Vector.ext
  intro k hk
  rw [snapshot_getElem]
  exact liveDurations_getElem s k (by omega)

/-! ### The abstract form of every operation (R21) -/

@[simp] theorem abstract_respond (r : Response) (s : State) : (respond r s).abstract = s.abstract := rfl

@[simp] theorem abstract_setPendingRise (ts : Tick) (s : State) :
    (setPendingRise ts s).abstract = { s.abstract with pending := some ts } := rfl

@[simp] theorem abstract_dropPendingRise (s : State) :
    (dropPendingRise s).abstract = { s.abstract with pending := none } := rfl

@[simp] theorem abstract_writeResult (r : ResultRegs) (s : State) :
    (writeResult r s).abstract = { s.abstract with result := some r } := rfl

@[simp] theorem abstract_clearLive (s : State) : (clearLive s).abstract = absClear s.cfg.clrPend s.abstract := by
  have hpending : (clearLive s).abstract.pending = if s.cfg.clrPend then none else s.abstract.pending := by
    cases hc : s.cfg.clrPend <;> simp [State.abstract, hc]
  rw [absClear, ← hpending]
  rfl

theorem abstract_durs_length (s : State) : s.abstract.durs.length = min s.count.toNat 40 :=
  liveDurations_length s

theorem abstract_ovf (s : State) : s.abstract.ovf = decide (s.count.toNat = 41) :=
  overflowed_eq_decide s.count

theorem overflowed_countPulse (c : CountWord) : overflowed (countPulse c) = decide (40 ≤ c.toNat) := by
  have h := countPulse_toNat c
  rw [overflowed_eq_decide, decide_eq_decide]
  split at h <;> omega

/-- R91: below 40 the duration joins the record's list; from 40 on it only raises the overflow flag. -/
theorem abstract_appendDuration {d : Tick} {s : State} (hwf : s.dur.wf = true) :
    (appendDuration d s).abstract = absAppend d s.abstract := by
  have hlen : s.abstract.durs.length < Config.nslot ↔ s.count.toNat < 40 := by simp [abstract_durs_length]
  have hovf := overflowed_countPulse s.count
  have hframe : (appendDuration d s).abstract =
      { s.abstract with durs := liveDurations (appendDuration d s), ovf := overflowed (countPulse s.count) } := by
    simp [State.abstract, resultOutputs]
  rw [hframe, absAppend]
  by_cases hroom : s.count.toNat < 40
  · have hlow : s.abstract.ovf = false := by
      rw [abstract_ovf, decide_eq_false_iff_not]
      omega
    rw [if_pos (hlen.mpr hroom), liveDurations_appendDuration_of_room hwf hroom, hovf, decide_eq_false (by omega),
      ← hlow]
    rfl
  · rw [if_neg (mt hlen.mp hroom), liveDurations_appendDuration_of_full (by omega), hovf, decide_eq_true (by omega)]
    rfl

theorem absPoll_abstract_of_ready (clrPend : Bool) {s : State} (h : s.count.toNat = 40) :
    absPoll clrPend s.abstract =
      ({ absClear clrPend s.abstract with result := some (decodeFrame (snapshot s)) },
        decodeResponse (decodeFrame (snapshot s))) := by
  have hlen : s.abstract.durs.length = 40 := by rw [abstract_durs_length, h]; rfl
  have hovf : s.abstract.ovf = false := by rw [abstract_ovf, h]; rfl
  have hsnap : (⟨s.abstract.durs.toArray, by simp [hlen]⟩ : Vector Tick 40) = snapshot s := liveDurations_toVector hlen
  simp [absPoll, hlen, hovf, hsnap]

/-- R162: with fewer than 40 durations, and with the overflow flag up, the record is not decoded either. -/
theorem absPoll_abstract_of_not_ready (clrPend : Bool) {s : State} (hle : s.count.toNat ≤ 41)
    (h : s.count.toNat ≠ 40) : absPoll clrPend s.abstract = (s.abstract, .notReady) := by
  rcases Nat.lt_or_ge s.count.toNat 40 with hlt | hge
  · have hlen : s.abstract.durs.length ≠ 40 := by rw [abstract_durs_length]; omega
    simp [absPoll, hlen]
  · have hovf : s.abstract.ovf = true := by rw [abstract_ovf, decide_eq_true_iff]; omega
    simp [absPoll, hovf]

theorem abstract_decodePoll (s : State) :
    (decodePoll s).abstract =
      { absClear s.cfg.clrPend s.abstract with result := some (decodeFrame (snapshot s)) } := by
  rw [decodePoll, abstract_respond, abstract_clearLive, abstract_writeResult]
  rfl

theorem abstract_closePulse {ts : Tick} {s : State} (hwf : s.dur.wf = true) :
    (closePulse ts s).abstract = { absAppend (pulseLength ts s.prise) s.abstract with pending := none } := by
  rw [closePulse, abstract_dropPendingRise, abstract_appendDuration hwf]

theorem abstract_pending_of_pend {s : State} (h : s.pend = true) : s.abstract.pending = some s.prise := by
  simp [State.abstract, h]

theorem abstract_pending_of_not_pend {s : State} (h : s.pend = false) : s.abstract.pending = none := by
  simp [State.abstract, h]

/-! ### The simulation (R21) -/

/-- One command: the registers and the record take corresponding steps and answer alike. -/
theorem exec_refines_absExec (i : Instr) {s : State} (hwf : s.dur.wf = true) (hle : s.count.toNat ≤ 41) :
    ∃ t r, exec i s = .next t ∧ t.rsp = some r ∧ absExec s.cfg.clrPend i s.abstract = (t.abstract, r) := by
  cases i with
  | nop => exact ⟨_, _, exec_nop s, rfl, rfl⟩
  | edgeR ts => exact ⟨_, _, exec_edgeR ts s, rfl, by simp [absExec]⟩
  | edgeF ts =>
    cases hp : s.pend with
    | false =>
      refine ⟨_, _, exec_edgeF_of_not_pend hp, rfl, ?_⟩
      simp [absExec, abstract_pending_of_not_pend hp]
    | true =>
      refine ⟨_, _, exec_edgeF_of_pend hp, rfl, ?_⟩
      simp [absExec, abstract_pending_of_pend hp, abstract_closePulse hwf]
  | clear => exact ⟨_, _, exec_clear s, rfl, by simp [absExec]⟩
  | poll =>
    by_cases hc : s.count.toNat = 40
    · refine ⟨_, _, exec_poll_of_ready hc, decodePoll_rsp s, ?_⟩
      rw [abstract_decodePoll]
      exact absPoll_abstract_of_ready _ hc
    · exact ⟨_, _, exec_poll_of_not_ready hc, rfl, absPoll_abstract_of_not_ready _ hle hc⟩

/-- R25: `COUNT` is the number of durations held, and one more when more than 40 have come. -/
theorem count_eq_abstract {s : State} (hle : s.count.toNat ≤ 41) :
    s.count.toNat = s.abstract.durs.length + s.abstract.ovf.toNat := by
  rw [abstract_durs_length, abstract_ovf]
  by_cases h : s.count.toNat = 41
  · rw [h]
    rfl
  · rw [decide_eq_false h, Bool.toNat_false]
    omega

/-- Settles O48: the simulation step by command, then R21's correspondence field by field. -/
theorem registersRefineTheAbstractForm : Obligations.RegistersRefineTheAbstractForm := by
  intro i s hwf hle
  refine ⟨exec_refines_absExec i hwf hle, ?_, ?_, count_eq_abstract hle, fun hovf => ?_, ?_⟩
  · cases hp : s.pend <;> simp [State.abstract, hp]
  · rw [abstract_durs_length]
    exact Nat.min_le_right _ _
  · rw [abstract_ovf, decide_eq_true_iff] at hovf
    rw [abstract_durs_length, hovf]
    rfl
  · cases hv : s.rvalid <;> simp [State.abstract, resultOutputs, hv]

/-! ### Reset (R40, R210) -/

theorem abstract_reset : State.reset.abstract = AbsState.initial := rfl

/-- Settles O40: each register of R40 by its reset law, and the abstract record they stand for. -/
theorem resetLeavesNoPendingRiseAndNoDurations : Obligations.ResetLeavesNoPendingRiseAndNoDurations :=
  ⟨reset_pend, rfl, reset_rvalid, rfl, rfl, resultOutputs_of_not_rvalid reset_rvalid, abstract_reset⟩

end Sys2Proof.Machine

/-! PROOFS. The statements of spec/30_encoding.md: the fields of the command word (R70, R71), the opcode table (R72),
ignored fields (R73), responses and `STATUS` (R75, R76), and the pseudo-instructions (R80). -/

namespace Sys2Proof

/-- A concatenation, read as a number: the upper part scaled by the width of the lower one. -/
theorem toNat_append_eq_mul_add {m n : Nat} (x : BitVec m) (y : BitVec n) :
    (x ++ y).toNat = x.toNat * 2 ^ n + y.toNat := by
  rw [BitVec.toNat_append, ← Nat.shiftLeft_add_eq_or_of_lt y.isLt, Nat.shiftLeft_eq]

/-! ### The command word and its three fields (R70, R71) -/

theorem commandWord_toNat (ts : Tick) (lvl : BitVec 1) (op : BitVec 2) :
    (commandWord ts lvl op).toNat = ts.toNat * 8 + lvl.toNat * 4 + op.toNat := by
  rw [commandWord, toNat_append_eq_mul_add, toNat_append_eq_mul_add]
  omega

@[simp] theorem opField_commandWord (ts : Tick) (lvl : BitVec 1) (op : BitVec 2) :
    opField (commandWord ts lvl op) = op :=
  BitVec.extractLsb'_append_eq_right

@[simp] theorem lvlField_commandWord (ts : Tick) (lvl : BitVec 1) (op : BitVec 2) :
    lvlField (commandWord ts lvl op) = lvl :=
  (BitVec.extractLsb'_append_eq_of_le (by decide)).trans BitVec.extractLsb'_append_eq_right

@[simp] theorem tsField_commandWord (ts : Tick) (lvl : BitVec 1) (op : BitVec 2) :
    tsField (commandWord ts lvl op) = ts :=
  (BitVec.extractLsb'_append_eq_of_le (by decide)).trans BitVec.extractLsb'_append_eq_left

/-- The fields cover the word: every word is the command word of its own fields. -/
theorem commandWord_fields (w : CommandWord) : commandWord (tsField w) (lvlField w) (opField w) = w := by
  have hupper : tsField w ++ lvlField w = w.extractLsb' 2 33 := BitVec.extractLsb'_append_extractLsb'_eq_extractLsb' rfl
  have hword : w.extractLsb' 2 33 ++ opField w = w.extractLsb' 0 35 :=
    BitVec.extractLsb'_append_extractLsb'_eq_extractLsb' rfl
  rw [commandWord, hupper, hword, BitVec.extractLsb'_eq_self]

/-! ### What the decoder makes of the fields (R70, R73) -/

/-- The decoder on a word given by its fields; `lvl` and `ts` occur in the `op = 1` branch only. -/
theorem decodeWord_commandWord (ts : Tick) (lvl : BitVec 1) (op : BitVec 2) :
    decodeWord (commandWord ts lvl op) =
      if op = 0#2 then .nop
      else if op = 1#2 then onEdge (levelOfBit lvl) ts
      else if op = 2#2 then .clear
      else .poll := by
  simp only [decodeWord, opField_commandWord, lvlField_commandWord, tsField_commandWord]

theorem decodeWord_commandWord_edge (ts : Tick) (lvl : BitVec 1) :
    decodeWord (commandWord ts lvl 1#2) = onEdge (levelOfBit lvl) ts :=
  decodeWord_commandWord ts lvl 1#2

theorem decodeWord_commandWord_of_op_ne_one {op : BitVec 2} (h : op ≠ 1#2) (lvl lvl' : BitVec 1) (ts ts' : Tick) :
    decodeWord (commandWord ts lvl op) = decodeWord (commandWord ts' lvl' op) := by
  rw [decodeWord_commandWord, decodeWord_commandWord, if_neg h, if_neg h]

theorem mnemonic_onEdge_congr (level : Level) (ts ts' : Tick) :
    (onEdge level ts).mnemonic = (onEdge level ts').mnemonic := by
  cases level <;> rfl

/-- The timestamp has no part in which command a word is. -/
theorem mnemonic_decodeWord_commandWord (ts ts' : Tick) (lvl : BitVec 1) (op : BitVec 2) :
    (decodeWord (commandWord ts lvl op)).mnemonic = (decodeWord (commandWord ts' lvl op)).mnemonic := by
  by_cases h : op = 1#2
  · rw [h, decodeWord_commandWord_edge, decodeWord_commandWord_edge, mnemonic_onEdge_congr _ ts ts']
  · rw [decodeWord_commandWord_of_op_ne_one h lvl lvl ts ts']

theorem decodeBits_of_lt {n : Nat} (h : n < 2 ^ 35) : decodeBits n = .ok (decodeWord (BitVec.ofNat 35 n)) :=
  if_pos h

theorem commandWord_and_three (ts : Tick) (lvl : BitVec 1) (op : BitVec 2) :
    commandWord ts lvl op &&& 3 = commandWord 0 0 op := by
  have hlow : ∀ (lvl : BitVec 1) (op : BitVec 2), commandWord 0 lvl op &&& 3 = commandWord 0 0 op := by decide
  calc commandWord ts lvl op &&& 3
      = (commandWord ts lvl op &&& 7) &&& 3 := by rw [BitVec.and_assoc]; rfl
    _ = commandWord 0 0 op := by rw [Laws.OpcodeMatch.commandWord_and_seven, hlow]

/-- A word and its canonical word are the same command. -/
theorem decodeWord_canonicalWord (w : CommandWord) : decodeWord (canonicalWord w) = decodeWord w := by
  unfold canonicalWord
  split
  · rfl
  · rename_i hop
    rw [← commandWord_fields w, commandWord_and_three]
    exact decodeWord_commandWord_of_op_ne_one hop _ _ _ _

/-! ### The opcode table (R72) -/

theorem OpcodeRow.matches_iff {r : OpcodeRow} {w : CommandWord} : r.matches w = true ↔ w &&& r.mask = r.pattern := by
  simp [OpcodeRow.matches]

/-- No row's mask reaches into `ts`. -/
theorem commandWord_and_mask {r : OpcodeRow} (hr : r ∈ opcodeTable) (ts : Tick) (lvl : BitVec 1)
    (op : BitVec 2) : commandWord ts lvl op &&& r.mask = commandWord 0 lvl op &&& r.mask := by
  have hmask : ∀ r ∈ opcodeTable, r.mask = 7 &&& r.mask := by decide
  rw [hmask r hr, ← BitVec.and_assoc, ← BitVec.and_assoc, Laws.OpcodeMatch.commandWord_and_seven,
    Laws.OpcodeMatch.commandWord_and_seven]

/-- The eight values of `lvl` and `op`, with `ts = 0`: one row each. -/
theorem lvl_op_select_one_row : ∀ (lvl : BitVec 1) (op : BitVec 2), ∃ r ∈ opcodeTable,
    commandWord 0 lvl op &&& r.mask = r.pattern ∧ r.mnemonic = (decodeWord (commandWord 0 lvl op)).mnemonic ∧
      ∀ r' ∈ opcodeTable, commandWord 0 lvl op &&& r'.mask = r'.pattern → r' = r := by
  decide

/-- Settles O4: no mask and no mnemonic depends on `ts`, so the eight values of `lvl` and `op` decide. -/
theorem exactlyOneOpcodeRowMatchesEveryWord : Obligations.ExactlyOneOpcodeRowMatchesEveryWord := by
  refine ⟨rfl, fun w => ?_⟩
  obtain ⟨r, hr, hmatch, hname, huniq⟩ := lvl_op_select_one_row (lvlField w) (opField w)
  have hmask : ∀ r ∈ opcodeTable, w &&& r.mask = commandWord 0 (lvlField w) (opField w) &&& r.mask := fun r hr => by
    rw [← commandWord_and_mask hr (tsField w), commandWord_fields]
  rw [← hmask r hr] at hmatch
  refine ⟨r, hr, OpcodeRow.matches_iff.mpr hmatch, hmatch, ?_, fun r' hr' h => huniq r' hr' (hmask r' hr' ▸ h)⟩
  rw [hname, mnemonic_decodeWord_commandWord 0 (tsField w), commandWord_fields]

/-- Settles O2: the value of the concatenation, the three fields read back, and the two `EDGE` forms. -/
theorem commandWordHoldsItsThreeFields : Obligations.CommandWordHoldsItsThreeFields := fun ts lvl op =>
  ⟨commandWord_toNat ts lvl op, tsField_commandWord ts lvl op, lvlField_commandWord ts lvl op,
    opField_commandWord ts lvl op, decodeWord_commandWord_edge ts 0, decodeWord_commandWord_edge ts 1⟩

/-- Settles O5: the canonical word decodes to the same command, because `lvl` and `ts` are read for `op = 1` only. -/
theorem everyWordIsLegalAndIgnoredFieldsChangeNothing : Obligations.EveryWordIsLegalAndIgnoredFieldsChangeNothing :=
  ⟨fun _ => decodeBits_of_lt, fun w => by rw [decodeWord_canonicalWord],
    fun _ lvl lvl' ts ts' hop => decodeWord_commandWord_of_op_ne_one hop lvl lvl' ts ts',
    commandWord_toNat 0 0 0, commandWord_toNat 0 0 2, commandWord_toNat 0 0 3⟩

end Sys2Proof

namespace Sys2Proof.Machine

/-! ### Responses (R75) -/

theorem decodeResponse_eq_ok_iff {r : ResultRegs} : decodeResponse r = .ok ↔ r.valid = true := by
  cases h : r.valid <;> simp [decodeResponse, h]

theorem decodeResponse_eq_csumErr_iff {r : ResultRegs} : decodeResponse r = .csumErr ↔ r.valid = false := by
  cases h : r.valid <;> simp [decodeResponse, h]

@[simp] theorem decodePoll_result (s : State) : (decodePoll s).result = decodeFrame (snapshot s) := rfl

/-- Every command but `POLL` has nothing to report. -/
theorem exec_rsp_of_ne_poll {i : Instr} (h : i ≠ .poll) (s : State) :
    ∃ t, exec i s = .next t ∧ t.rsp = some .nothing := by
  cases i with
  | nop => exact ⟨_, exec_nop s, rfl⟩
  | edgeF ts =>
    cases hp : s.pend with
    | false => exact ⟨_, exec_edgeF_of_not_pend hp, rfl⟩
    | true => exact ⟨_, exec_edgeF_of_pend hp, rfl⟩
  | edgeR ts => exact ⟨_, exec_edgeR ts s, rfl⟩
  | clear => exact ⟨_, exec_clear s, rfl⟩
  | poll => exact absurd rfl h

/-- Settles O33: `POLL` by whether `COUNT` is 40, and all other commands alike. -/
theorem responseOfEveryCommand : Obligations.ResponseOfEveryCommand := by
  refine ⟨fun i s => ?_, rfl⟩
  by_cases hi : i = .poll
  · subst hi
    by_cases hc : s.count.toNat = 40
    · refine ⟨_, exec_poll_of_ready hc, fun hn => absurd rfl hn, fun _ hn => absurd hc hn, fun _ _ => ?_⟩
      rw [decodePoll_rsp, decodePoll_result, Option.some_inj, Option.some_inj]
      exact ⟨decodePoll_rvalid s, decodeResponse_eq_ok_iff, decodeResponse_eq_csumErr_iff⟩
    · exact ⟨_, exec_poll_of_not_ready hc, fun hn => absurd rfl hn, fun _ _ => rfl, fun _ h => absurd h hc⟩
  · obtain ⟨t, hexec, hrsp⟩ := exec_rsp_of_ne_poll hi s
    exact ⟨t, hexec, fun _ => hrsp, fun h => absurd h hi, fun h => absurd h hi⟩

/-! ### `STATUS` (R76) -/

/-- The fields of `STATUS` do not overlap, so its value is their sum. -/
theorem status_toNat (s : State) :
    (status s).toNat = s.count.toNat + (frameReady s.count).toNat * 2 ^ 6 + (overflowed s.count).toNat * 2 ^ 7 +
      s.pend.toNat * 2 ^ 8 := by
  rw [status]
  simp only [toNat_append_eq_mul_add, BitVec.toNat_ofBool]
  omega

/-- Settles O34: the two flags of `STATUS` are those of the numbers 40 and 41. -/
theorem statusShowsTheRecorder : Obligations.StatusShowsTheRecorder := by
  refine ⟨fun s => ?_, rfl⟩
  rw [status_toNat, frameReady_eq_decide, overflowed_eq_decide]
  simp [Bool.toNat, Bool.cond_eq_ite]

/-! ### `PULSE` and `FRAME` (R80) -/

theorem pulse_eq (t w : Tick) :
    pulse t w = [.edgeR t, .edgeF (BitVec.ofNat 32 ((t.toNat + w.toNat) % 2 ^ 32))] := by
  rw [← BitVec.toNat_add, BitVec.ofNat_toNat, BitVec.setWidth_eq]
  rfl

/-- When pulse `k` of a `pulseTrain` starts. -/
def trainStart (gap : Tick) : Tick → List Tick → Nat → Tick
  | t, _, 0 => t
  | t, [], _ + 1 => t
  | t, w :: ws, k + 1 => trainStart gap (t + w + gap) ws k

@[simp] theorem trainStart_zero (gap t : Tick) (ws : List Tick) : trainStart gap t ws 0 = t := by
  cases ws <;> rfl

@[simp] theorem trainStart_cons_succ (gap t w : Tick) (ws : List Tick) (k : Nat) :
    trainStart gap t (w :: ws) (k + 1) = trainStart gap (t + w + gap) ws k := rfl

@[simp] theorem pulseTrain_cons (gap t w : Tick) (ws : List Tick) :
    pulseTrain gap t (w :: ws) = .edgeR t :: .edgeF (t + w) :: pulseTrain gap (t + w + gap) ws := rfl

theorem pulseTrain_length (gap t : Tick) (ws : List Tick) : (pulseTrain gap t ws).length = 2 * ws.length := by
  induction ws generalizing t with
  | nil => rfl
  | cons w ws ih =>
    rw [pulseTrain_cons, List.length_cons, List.length_cons, ih, List.length_cons]
    omega

/-- The next pulse starts the width and the gap after this one. -/
theorem trainStart_succ (gap t : Tick) {ws : List Tick} {k : Nat} (hk : k < ws.length) :
    trainStart gap t ws (k + 1) = trainStart gap t ws k + ws[k] + gap := by
  induction ws generalizing t k with
  | nil => exact absurd hk (Nat.not_lt_zero k)
  | cons w ws ih =>
    cases k with
    | zero => simp
    | succ k => simpa using ih (t + w + gap) (Nat.lt_of_succ_lt_succ hk)

/-- Commands `2k` and `2k + 1` of a train are the rise and the fall of pulse `k`. -/
theorem pulseTrain_getElem? (gap t : Tick) {ws : List Tick} {k : Nat} (hk : k < ws.length) :
    (pulseTrain gap t ws)[2 * k]? = some (.edgeR (trainStart gap t ws k)) ∧
      (pulseTrain gap t ws)[2 * k + 1]? = some (.edgeF (trainStart gap t ws k + ws[k])) := by
  induction ws generalizing t k with
  | nil => exact absurd hk (Nat.not_lt_zero k)
  | cons w ws ih =>
    cases k with
    | zero => simp
    | succ k => simpa [Nat.mul_succ] using ih (t + w + gap) (Nat.lt_of_succ_lt_succ hk)

/-- Width `k` of a frame, by bit `7 - (k mod 8)` of byte `k div 8`. -/
theorem frameWidths_toList_getElem (ws wl : Tick) (b : Vector Byte 5) (k : Fin 40)
    (hk : k.val < (frameWidths ws wl b).toList.length) :
    (frameWidths ws wl b).toList[k.val] = if b[k.val / 8].getLsbD (7 - k.val % 8) = true then wl else ws := by
  simp [frameWidths, frameBits]

/-- Settles O52: the pulses of a train, at the starts `trainStart` computes, for the 40 widths of the frame. -/
theorem frameExpandsToFortyPulses : Obligations.FrameExpandsToFortyPulses := by
  refine ⟨pulse_eq, fun t0 ws wl gap b => ⟨?_, trainStart gap t0 (frameWidths ws wl b).toList, trainStart_zero .., ?_⟩⟩
  · rw [frame, pulseTrain_length, Vector.length_toList]
  · intro k
    have hk : k.val < (frameWidths ws wl b).toList.length := by simp
    have hwidth := frameWidths_toList_getElem ws wl b k hk
    obtain ⟨hrise, hfall⟩ := pulseTrain_getElem? gap t0 hk
    rw [hwidth] at hfall
    exact ⟨by rw [trainStart_succ gap t0 hk, hwidth], hrise, hfall⟩

end Sys2Proof.Machine

/-! PROOFS. The statements of spec/40_edge_recorder.md: the rising edge (R90), the falling edge (R91) and the pulse
length (R92). -/

namespace Sys2Proof.Machine

/-! ### The pulse length (R92) -/

theorem pulseLength_toNat {w : Nat} (ts prise : BitVec w) :
    (pulseLength ts prise).toNat = (ts.toNat + (2 ^ w - prise.toNat)) % 2 ^ w := by
  rw [pulseLength, BitVec.toNat_sub, Nat.add_comm]

/-- The counter wrapped between the rise and the fall. -/
theorem pulseLength_toNat_of_lt {w : Nat} {ts prise : BitVec w} (h : ts.toNat < prise.toNat) :
    (pulseLength ts prise).toNat = ts.toNat + 2 ^ w - prise.toNat := by
  rw [pulseLength_toNat, ← Nat.add_sub_assoc prise.isLt.le, Nat.mod_eq_of_lt]
  omega

/-- Reducing both times modulo `2^w` loses nothing of the elapsed count but its multiples of `2^w`. -/
theorem pulseLength_ofNat_add (w start elapsed : Nat) :
    pulseLength (BitVec.ofNat w (start + elapsed)) (BitVec.ofNat w start) = BitVec.ofNat w elapsed := by
  rw [pulseLength, BitVec.ofNat_add, BitVec.add_comm, BitVec.add_sub_cancel]

/-- Settles O13: the two cases of the difference, and the elapsed count by `pulseLength_ofNat_add`. -/
theorem pulseLengthIsElapsedTimeModulo : Obligations.PulseLengthIsElapsedTimeModulo := by
  refine fun w => ⟨fun ts prise => ?_, fun start elapsed => ?_⟩
  · split
    · next hle => exact BitVec.toNat_sub_of_le hle
    · next hlt => exact pulseLength_toNat_of_lt (Nat.lt_of_not_le hlt)
  · rw [pulseLength_ofNat_add, BitVec.toNat_ofNat]

/-! ### The rising edge (R90) -/

/-- Settles O11: `setPendingRise` writes the marker and its timestamp, `respond` the response. -/
theorem risingEdgeBecomesThePendingRise : Obligations.RisingEdgeBecomesThePendingRise := fun ts s =>
  ⟨_, exec_edgeR ts s, setPendingRise_pend ts s, setPendingRise_prise ts s, respond_rsp _ _, rfl, rfl,
    memRead_congr rfl, rfl, rfl, rfl, rfl⟩

/-! ### The falling edge (R91) -/

@[simp] theorem closePulse_pend (ts : Tick) (s : State) : (closePulse ts s).pend = false := rfl

@[simp] theorem closePulse_prise (ts : Tick) (s : State) : (closePulse ts s).prise = s.prise := by
  simp [closePulse]

@[simp] theorem closePulse_count (ts : Tick) (s : State) : (closePulse ts s).count = countPulse s.count := by
  simp [closePulse]

@[simp] theorem closePulse_port (ts : Tick) (s : State) : (closePulse ts s).port = s.port := by
  simp [closePulse]

@[simp] theorem closePulse_cfg (ts : Tick) (s : State) : (closePulse ts s).cfg = s.cfg := by
  simp [closePulse]

theorem closePulse_dur_of_full {ts : Tick} {s : State} (hfull : 40 ≤ s.count.toNat) :
    (closePulse ts s).dur = s.dur :=
  appendDuration_dur_of_full hfull

@[simp] theorem memRead_respond (r : Response) (s : State) (k : Nat) : memRead k (respond r s) = memRead k s := rfl

theorem memRead_closePulse {ts : Tick} {s : State} (hwf : s.dur.wf = true) (hroom : s.count.toNat < 40) (k : Nat) :
    memRead k (closePulse ts s) = if k = s.count.toNat then pulseLength ts s.prise else memRead k s :=
  memRead_appendDuration hwf hroom k

theorem frameReady_countPulse (c : CountWord) : frameReady (countPulse c) = decide (c.toNat = 39) := by
  have h := countPulse_toNat c
  rw [frameReady_eq_decide, decide_eq_decide]
  split at h <;> omega

/-- Settles O12: without a pending rise only the response is written; with one, `closePulse` is read off at the entry
`COUNT`, at every other entry, and in the flags of the new count. -/
theorem fallingEdgeClosesThePendingPulse : Obligations.FallingEdgeClosesThePendingPulse := by
  intro ts s hwf
  cases hp : s.pend with
  | false =>
    refine ⟨_, exec_edgeF_of_not_pend hp, hp, rfl, rfl, rfl, rfl, rfl, rfl, fun _ => ⟨rfl, rfl⟩, ?_, ?_, ?_⟩ <;>
      exact fun h => absurd h Bool.false_ne_true
  | true =>
    refine ⟨_, exec_edgeF_of_pend hp, closePulse_pend ts s, rfl, closePulse_prise ts s, closePulse_rvalid ts s,
      closePulse_result ts s, closePulse_port ts s, closePulse_cfg ts s, fun h => absurd h.symm Bool.false_ne_true,
      fun _ hroom => ?_, fun _ hfull => ?_, fun _ => ?_⟩
    · refine ⟨?_, ?_, fun k hk => ?_⟩
      · rw [respond_count, closePulse_count, countPulse_toNat, if_pos hroom]
      · rw [memRead_respond, memRead_closePulse hwf hroom, if_pos rfl, pulseLength_toNat]
      · rw [memRead_respond, memRead_closePulse hwf hroom, if_neg hk]
    · refine ⟨?_, closePulse_dur_of_full hfull⟩
      rw [respond_count, closePulse_count, countPulse_toNat, if_neg hfull.not_gt]
    · rw [respond_count, closePulse_count]
      exact ⟨frameReady_countPulse s.count, overflowed_countPulse s.count⟩

end Sys2Proof.Machine

/-! PROOFS. The statements of spec/41_bit_classifier.md: the extremes and the threshold (R110, R111), the forms of the
comparison (R112), and a frame of identical durations (R113). -/

namespace Sys2Proof.Machine

/-! ### The comparison with the midpoint (R110 to R112) -/

/-- Settles O17: `DMIN` and `DMAX` bound the durations and are among them, and the bit compares exact numbers. -/
theorem classifierComparesWithTheFrameMidpoint : Obligations.ClassifierComparesWithTheFrameMidpoint := fun _ d =>
  ⟨classify_dmin_mem d, classify_dmin_le d, classify_dmax_mem d, le_classify_dmax d, classify_bit d⟩

theorem classify_bit_iff {w : Nat} (d : Vector (BitVec w) 40) (k : Fin 40) :
    (classify d).2.2[k] = true ↔ (classify d).1.toNat + (classify d).2.1.toNat < 2 * d[k].toNat := by
  rw [classify_bit, decide_eq_true_iff]

/-- Twice the real midpoint is the sum of the extremes. -/
theorem midpoint_lt_iff (lo hi x : Nat) : (lo : ℚ) + ((hi : ℚ) - (lo : ℚ)) / 2 < (x : ℚ) ↔ lo + hi < 2 * x := by
  have hcast : lo + hi < 2 * x ↔ (lo : ℚ) + (hi : ℚ) < 2 * (x : ℚ) := by exact_mod_cast Iff.rfl
  rw [hcast]
  constructor <;> intro h <;> linarith

/-- Settles O18: every form is the sum form. The extremes bound the duration, so the subtractions of the last two do
not truncate; the floor only rounds away what a strict comparison of integers does not see. -/
theorem classifierFormsAgreeWithTheRealMidpoint : Obligations.ClassifierFormsAgreeWithTheRealMidpoint := by
  intro w d k
  have hmin : (classify d).1.toNat ≤ d[k].toNat := classify_dmin_le d k
  have hmax : d[k].toNat ≤ (classify d).2.1.toNat := le_classify_dmax d k
  rw [classify_bit_iff, midpoint_lt_iff]
  refine ⟨Iff.rfl, Iff.rfl, ?_, ?_⟩ <;> omega

/-! ### Identical durations (R113) -/

/-- Both extremes are the one duration there is, and it does not exceed the midpoint. -/
theorem classify_replicate {w : Nat} (v : BitVec w) :
    classify (Vector.replicate 40 v) = (v, v, Vector.replicate 40 false) := by
  have hmin : (classify (Vector.replicate 40 v)).1 = v := by
    obtain ⟨k, hk⟩ := classify_dmin_mem (Vector.replicate 40 v)
    exact hk.symm.trans (Vector.getElem_replicate k.isLt)
  have hmax : (classify (Vector.replicate 40 v)).2.1 = v := by
    obtain ⟨k, hk⟩ := classify_dmax_mem (Vector.replicate 40 v)
    exact hk.symm.trans (Vector.getElem_replicate k.isLt)
  have hbits : (classify (Vector.replicate 40 v)).2.2 = Vector.replicate 40 false := by
    apply Vector.ext
    intro k hk
    have hbit := classify_bit (Vector.replicate 40 v) ⟨k, hk⟩
    rw [hmin, hmax, Fin.getElem_fin, Fin.getElem_fin, Vector.getElem_replicate] at hbit
    rw [hbit, Vector.getElem_replicate, decide_eq_false_iff_not]
    omega
  exact Prod.ext hmin (Prod.ext hmax hbits)

theorem pack_replicate_false : pack (Vector.replicate 40 false) = Vector.replicate 5 0 := by decide

theorem decodeFrame_replicate (v : Tick) :
    decodeFrame (Vector.replicate 40 v) = { ResultRegs.reset with dmin := v, dmax := v, valid := true } := by
  simp only [decodeFrame, classify_replicate, pack_replicate_false]
  rfl

theorem snapshot_of_memRead_eq {s : State} {v : Tick} (h : ∀ k < 40, memRead k s = v) :
    snapshot s = Vector.replicate 40 v := by
  apply Vector.ext
  intro k hk
  rw [snapshot_getElem, h k hk, Vector.getElem_replicate]

/-- Settles O19: the snapshot is 40 times `v`, and `decodeFrame_replicate` gives every result register. -/
theorem degenerateFrameDecodesToZeros : Obligations.DegenerateFrameDecodesToZeros := by
  intro s v hcount hread
  have hframe : decodeFrame (snapshot s) = { ResultRegs.reset with dmin := v, dmax := v, valid := true } := by
    rw [snapshot_of_memRead_eq hread, decodeFrame_replicate]
  refine ⟨_, exec_poll_of_ready hcount, ?_, decodePoll_rvalid s, ?_⟩
  · rw [decodePoll_rsp, hframe]
    rfl
  · rw [decodePoll_result, hframe]
    exact ⟨rfl, rfl, fun k => Vector.getElem_replicate k.isLt, fun g => Vector.getElem_replicate g.isLt, rfl, rfl,
      rfl, rfl⟩

end Sys2Proof.Machine

/-! PROOFS. The statements of spec/42_byte_packer.md: which bit of which byte a bit becomes (R125), and the round trip
of a frame (R128). -/

namespace Sys2Proof.Machine

/-! ### Bits and bytes (R125) -/

/-- A shift moves every bit one place up and puts the new one at the bottom. -/
theorem shiftIn_getLsbD (sr : Byte) (bit : Bool) {i : Nat} (hi : i < 8) :
    (shiftIn sr bit).getLsbD i = if i = 0 then bit else sr.getLsbD (i - 1) := by
  cases i with
  | zero => simp [shiftIn]
  | succ i => simp [shiftIn, hi, BitVec.getLsbD_eq_getElem (Nat.lt_of_succ_lt hi)]

/-- Bit `i` is the one shifted in `i` before the last; if there is none, it is a bit of the start value. -/
theorem foldl_shiftIn_getLsbD (sr : Byte) (group : List Bool) {i : Nat} (hi : i < 8) :
    (group.foldl shiftIn sr).getLsbD i =
      if h : i < group.length then group.reverse[i]'(by simpa using h) else sr.getLsbD (i - group.length) := by
  induction group using List.reverseRecOn generalizing i with
  | nil => simp
  | append_singleton group bit ih =>
    rw [List.foldl_concat, shiftIn_getLsbD _ _ hi]
    cases i with
    | zero => simp
    | succ i => simp [ih (Nat.lt_of_succ_lt hi)]

/-- Bit `i` of `BYTE[g]` is bit `7-i` of the group, counted in order of reception. -/
theorem pack_getLsbD (bits : Vector Bool 40) {g i : Nat} (hg : g < 5) (hi : i < 8) :
    (pack bits)[g].getLsbD i = bits[8 * g + (7 - i)] := by
  have hpack : (pack bits)[g] = (bitGroup bits ⟨g, hg⟩).foldl shiftIn 0 := by simp [pack, packByte]
  have hlen : (bitGroup bits ⟨g, hg⟩).length = 8 := List.length_ofFn
  rw [hpack, foldl_shiftIn_getLsbD 0 _ hi, dif_pos (by rwa [hlen]), List.getElem_reverse]
  simp only [bitGroup, List.length_ofFn, List.getElem_ofFn]

theorem frameBits_getElem (b : Vector Byte 5) (k : Nat) (hk : k < 40) :
    (frameBits b)[k] = b[k / 8].getLsbD (7 - k % 8) := by
  simp [frameBits]

theorem pack_frameBits (b : Vector Byte 5) : pack (frameBits b) = b := by
  apply Vector.ext
  intro g hg
  apply BitVec.eq_of_getLsbD_eq
  intro i hi
  rw [pack_getLsbD _ hg hi, frameBits_getElem]
  congr 2 <;> omega

theorem frameBits_pack (bits : Vector Bool 40) : frameBits (pack bits) = bits := by
  apply Vector.ext
  intro k hk
  rw [frameBits_getElem, pack_getLsbD bits (by omega) (by omega)]
  congr 1
  omega

/-- Settles O22: the closed form is `pack_toNat`, the bit positions are `pack_getLsbD`, and `frameBits` is the inverse
of `pack`. -/
theorem packerPutsTheFirstBitOnTop : Obligations.PackerPutsTheFirstBitOnTop := by
  refine ⟨fun bits g j => ⟨pack_toNat bits g, ?_⟩, Function.bijective_iff_has_inverse.mpr
    ⟨frameBits, frameBits_pack, pack_frameBits⟩⟩
  rw [Fin.getElem_fin, pack_getLsbD bits g.isLt (by omega)]
  congr 1
  omega

/-! ### The widths of a frame classify back to its bits (R128) -/

theorem frameWidths_getElem (ws wl : Tick) (b : Vector Byte 5) (k : Fin 40) :
    (frameWidths ws wl b)[k] = if (frameBits b)[k] = true then wl else ws := by
  simp [frameWidths]

/-- Five bytes other than five `0xFF` have a bit that is 0. -/
theorem exists_frameBits_eq_false {b : Vector Byte 5} (hb : b ≠ #v[0xFF, 0xFF, 0xFF, 0xFF, 0xFF]) :
    ∃ k : Fin 40, (frameBits b)[k] = false := by
  by_contra hnone
  have hones : frameBits b = frameBits #v[0xFF, 0xFF, 0xFF, 0xFF, 0xFF] := by
    have htop : frameBits #v[0xFF, 0xFF, 0xFF, 0xFF, 0xFF] = Vector.replicate 40 true := by decide
    rw [htop]
    apply Vector.ext
    intro k hk
    rw [Vector.getElem_replicate]
    exact Bool.eq_true_of_not_eq_false fun h => hnone ⟨⟨k, hk⟩, h⟩
  exact hb (by rw [← pack_frameBits b, hones, pack_frameBits])

/-- With a short width present, that width is `DMIN`. -/
theorem classify_dmin_frameWidths {ws wl : Tick} {b : Vector Byte 5} (hlt : ws.toNat < wl.toNat)
    (hb : b ≠ #v[0xFF, 0xFF, 0xFF, 0xFF, 0xFF]) : (classify (frameWidths ws wl b)).1 = ws := by
  obtain ⟨z, hz⟩ := exists_frameBits_eq_false hb
  obtain ⟨m, hm⟩ := classify_dmin_mem (frameWidths ws wl b)
  have hle := classify_dmin_le (frameWidths ws wl b) z
  rw [frameWidths_getElem, hz, if_neg Bool.false_ne_true] at hle
  rw [frameWidths_getElem] at hm
  split at hm
  · rw [← hm] at hle
    omega
  · exact hm.symm

theorem classify_dmax_frameWidths_le {ws wl : Tick} (b : Vector Byte 5) (hlt : ws.toNat < wl.toNat) :
    (classify (frameWidths ws wl b)).2.1.toNat ≤ wl.toNat := by
  obtain ⟨m, hm⟩ := classify_dmax_mem (frameWidths ws wl b)
  rw [← hm, frameWidths_getElem]
  split
  · exact le_rfl
  · exact hlt.le

/-- The width that stands for a bit is above the midpoint of `ws` and `DMAX` exactly for a 1, whether or not the frame
has a 1 (R114 (a) and (b)). -/
theorem decide_midpoint_lt_width {ws wl : Tick} {dmax : Nat} (bit : Bool) (hlt : ws.toNat < wl.toNat)
    (hge : (if bit = true then wl else ws).toNat ≤ dmax) (hmax : dmax ≤ wl.toNat) :
    decide (ws.toNat + dmax < 2 * (if bit = true then wl else ws).toNat) = bit := by
  cases bit with
  | false =>
    rw [if_neg Bool.false_ne_true] at hge ⊢
    rw [decide_eq_false_iff_not]
    omega
  | true =>
    rw [if_pos rfl, decide_eq_true_iff]
    omega

theorem classify_frameWidths {ws wl : Tick} {b : Vector Byte 5} (hlt : ws.toNat < wl.toNat)
    (hb : b ≠ #v[0xFF, 0xFF, 0xFF, 0xFF, 0xFF]) : (classify (frameWidths ws wl b)).2.2 = frameBits b := by
  have hbits : ∀ k : Fin 40, (classify (frameWidths ws wl b)).2.2[k] = (frameBits b)[k] := fun k => by
    have hge := le_classify_dmax (frameWidths ws wl b) k
    rw [frameWidths_getElem] at hge
    rw [classify_bit, classify_dmin_frameWidths hlt hb, frameWidths_getElem]
    exact decide_midpoint_lt_width _ hlt hge (classify_dmax_frameWidths_le b hlt)
  exact Vector.ext fun k hk => hbits ⟨k, hk⟩

/-! ### Recording a train of pulses (R91, R220) -/

/-- The state `PULSE t, w` leads to. -/
def recordPulse (t w : Tick) (s : State) : State :=
  respond .nothing (closePulse (t + w) (respond .nothing (setPendingRise t s)))

theorem runCommands_pulse_append (t w : Tick) (rest : List Instr) (s : State) :
    runCommands (pulse t w ++ rest) s = runCommands rest (recordPulse t w s) :=
  (runCommands_cons (exec_edgeR t s)).trans (runCommands_cons (exec_edgeF_of_pend rfl))

@[simp] theorem recordPulse_count (t w : Tick) (s : State) : (recordPulse t w s).count = countPulse s.count := by
  simp [recordPulse]

theorem recordPulse_dur (t w : Tick) (s : State) : (recordPulse t w s).dur = (appendDuration w s).dur := by
  have hlen : pulseLength (t + w) (respond .nothing (setPendingRise t s)).prise = w := by
    rw [respond_prise, setPendingRise_prise, pulseLength, BitVec.add_comm, BitVec.add_sub_cancel]
  rw [recordPulse, respond_dur, closePulse, dropPendingRise_dur, hlen, appendDuration_dur, appendDuration_dur]
  rfl

theorem recordPulse_dur_wf {t w : Tick} {s : State} (hwf : s.dur.wf = true) : (recordPulse t w s).dur.wf = true := by
  rw [recordPulse_dur]
  exact appendDuration_dur_wf hwf

theorem liveDurations_recordPulse {t w : Tick} {s : State} (hwf : s.dur.wf = true) :
    liveDurations (recordPulse t w s) = (liveDurations s ++ [w]).take 40 := by
  have happend : liveDurations (recordPulse t w s) = liveDurations (appendDuration w s) :=
    liveDurations_congr (by simp) (recordPulse_dur t w s)
  have hlen := liveDurations_length s
  rw [happend]
  rcases Nat.lt_or_ge s.count.toNat 40 with hroom | hfull
  · rw [liveDurations_appendDuration_of_room hwf hroom, List.take_of_length_le]
    rw [List.length_append, List.length_singleton]
    omega
  · rw [liveDurations_appendDuration_of_full hfull, List.take_left' (by omega)]

/-- Cutting a list to `n` elements does not change what a longer one is cut to. -/
theorem take_take_append {α : Type} (n : Nat) (l m : List α) : (l.take n ++ m).take n = (l ++ m).take n := by
  rw [List.take_append, List.take_append, List.take_take, Nat.min_self, List.length_take]
  congr 2
  omega

/-- Pulses are appended in order while there is room, and counted up to 41. -/
theorem runCommands_pulses (ps : List (Tick × Tick)) {s : State} (hwf : s.dur.wf = true) (hle : s.count.toNat ≤ 41) :
    ∃ t, runCommands (pulses ps) s = some t ∧ t.dur.wf = true ∧
      t.count.toNat = min (s.count.toNat + ps.length) 41 ∧
      liveDurations t = (liveDurations s ++ ps.map Prod.snd).take 40 := by
  induction ps generalizing s with
  | nil =>
    have hlen := liveDurations_length s
    refine ⟨s, rfl, hwf, (Nat.min_eq_left hle).symm, ?_⟩
    rw [List.map_nil, List.append_nil, List.take_of_length_le (by omega)]
  | cons p ps ih =>
    have hcount := countPulse_toNat s.count
    rw [← recordPulse_count p.1 p.2 s] at hcount
    have hle' : (recordPulse p.1 p.2 s).count.toNat ≤ 41 := by split at hcount <;> omega
    obtain ⟨t, hrun, hwf', hcount', hlive⟩ := ih (recordPulse_dur_wf hwf) hle'
    refine ⟨t, (runCommands_pulse_append p.1 p.2 (pulses ps) s).trans hrun, hwf', ?_, ?_⟩
    · rw [hcount', List.length_cons]
      split at hcount <;> omega
    · rw [hlive, liveDurations_recordPulse hwf, take_take_append, List.append_assoc]
      rfl

/-- The pulses of a train, each at its own start. -/
theorem pulseTrain_eq_pulses (gap t : Tick) (ws : List Tick) :
    ∃ ps, pulseTrain gap t ws = pulses ps ∧ ps.map Prod.snd = ws := by
  induction ws generalizing t with
  | nil => exact ⟨[], rfl, rfl⟩
  | cons w ws ih =>
    obtain ⟨ps, htrain, hwidths⟩ := ih (t + w + gap)
    refine ⟨(t, w) :: ps, ?_, by rw [List.map_cons, hwidths]⟩
    rw [pulseTrain, htrain]
    rfl

/-! ### The round trip (R128) -/

theorem snapshot_of_liveDurations_eq {s : State} {d : Vector Tick 40} (h : liveDurations s = d.toList) :
    snapshot s = d := by
  apply Vector.ext
  intro k hk
  rw [snapshot_getElem, ← liveDurations_getElem s k (by simpa [h] using hk)]
  simp [h]

/-- After `CLEAR` and a frame, the buffer holds exactly the widths of the frame. -/
theorem runCommands_clear_frame (t0 ws wl gap : Tick) (b : Vector Byte 5) {s : State} (hwf : s.dur.wf = true) :
    ∃ t, runCommands (.clear :: frame t0 ws wl gap b) s = some t ∧ t.count.toNat = 40 ∧
      snapshot t = frameWidths ws wl b := by
  obtain ⟨ps, htrain, hwidths⟩ := pulseTrain_eq_pulses gap t0 (frameWidths ws wl b).toList
  have hlen : ps.length = 40 := by rw [← List.length_map (f := Prod.snd), hwidths, Vector.length_toList]
  obtain ⟨t, hrun, -, hcount, hlive⟩ :=
    runCommands_pulses ps (s := respond .nothing (clearLive s)) hwf (Nat.zero_le 41)
  refine ⟨t, ?_, ?_, snapshot_of_liveDurations_eq ?_⟩
  · rw [runCommands_cons (exec_clear s), frame, htrain, hrun]
  · rw [hcount, hlen]
    rfl
  · have hnone : liveDurations (respond .nothing (clearLive s)) = [] := rfl
    rw [hlive, hnone, List.nil_append, hwidths, List.take_of_length_le (by simp)]

/-- Step 8 of R162 in exact arithmetic. -/
theorem decodeResponse_of_decodesTo {d : Vector Tick 40} {r : ResultRegs} (h : DecodesTo d r) :
    decodeResponse r =
      if (r.bytes[0].toNat + r.bytes[1].toNat + r.bytes[2].toNat + r.bytes[3].toNat) % 256 = r.bytes[4].toNat
      then .ok else .csumErr := by
  rw [decodeResponse, h.valid, ← h.sum]
  simp [BitVec.toNat_inj]

/-- Settles O46: the frame fills the buffer with its widths, they classify back to its bits, and `pack` inverts
`frameBits`; the readings and the response are those of the bytes by `decodesTo_decodeFrame`. -/
theorem frameRoundTripRecoversTheBytes : Obligations.FrameRoundTripRecoversTheBytes := by
  intro t0 ws wl gap b s hwf hlt hb
  obtain ⟨t, hrun, hcount, hsnap⟩ := runCommands_clear_frame t0 ws wl gap b hwf
  have hdec : DecodesTo (snapshot t) (decodeFrame (snapshot t)) := decodesTo_decodeFrame (snapshot t)
  have hbytes : (decodeFrame (snapshot t)).bytes = b := by
    calc (decodeFrame (snapshot t)).bytes
        = pack (classify (snapshot t)).2.2 := rfl
      _ = b := by rw [hsnap, classify_frameWidths hlt hb, pack_frameBits]
  have hhum := hdec.hum
  have htemp := hdec.temp
  have hrsp := decodeResponse_of_decodesTo hdec
  rw [hbytes] at hhum htemp hrsp
  refine ⟨decodePoll t, ?_, hbytes, decodePoll_rvalid t, rfl, hhum, htemp, ?_⟩
  · rw [runCommands_append, hrun, Option.bind_some, runCommands_cons (exec_poll_of_ready hcount)]
    rfl
  · rw [decodePoll_rsp, hrsp]

end Sys2Proof.Machine

/-! PROOFS. The statements of spec/43_checksum_validator.md: the checksum in exact arithmetic (R135, R136) and the 8-bit
accumulator (R137). -/

namespace Sys2Proof.Machine

/-- The accumulator of R137 over the bytes in their own order. -/
theorem foldl_add_firstFour (bytes : Vector Byte 5) :
    [bytes[0], bytes[1], bytes[2], bytes[3]].foldl (fun acc b => acc + b) 0 = checksum bytes := by
  simp [checksum]

/-- Settles O26: addition modulo 256 is commutative and associative, so a permuted fold ends at the same byte. -/
theorem accumulatorOrderDoesNotMatter : Obligations.AccumulatorOrderDoesNotMatter := by
  intro bytes order hperm
  calc order.foldl (fun acc b => acc + b) 0
      = [bytes[0], bytes[1], bytes[2], bytes[3]].foldl (fun acc b => acc + b) 0 :=
        hperm.foldl_eq' (fun x _ y _ acc => add_right_comm acc x y) 0
    _ = (check bytes).1 := foldl_add_firstFour bytes

/-- The comparator of R135. -/
theorem check_valid_iff (bytes : Vector Byte 5) : (check bytes).2 = true ↔ checksum bytes = bytes[4] :=
  beq_iff_eq

/-- Settles O25: `checksum_toNat` is the sum, and the comparator compares the two bytes as numbers. -/
theorem checksumIsTheSumModulo256 : Obligations.ChecksumIsTheSumModulo256 := by
  intro bytes
  refine ⟨checksum_toNat bytes, ?_⟩
  rw [check_valid_iff, ← BitVec.toNat_inj, checksum_toNat]

end Sys2Proof.Machine

/-! PROOFS. The statement of spec/44_reading_decoder.md. Each clause is about one reading, proved once for `tenths` from
`tenths_toNat`; the humidity and the temperature are two instances. -/

namespace Sys2Proof.Machine

/-- The largest reading, that of two bytes 255 (R147). -/
theorem tenths_le (integer decimal : Byte) : (tenths integer decimal).toNat ≤ 2805 := by
  have hi := integer.isLt
  have hd := decimal.isLt
  rw [tenths_toNat]
  omega

/-- The rational meaning of a reading (R145). -/
theorem tenths_cast_div_ten (integer decimal : Byte) :
    ((tenths integer decimal).toNat : ℚ) / 10 = (integer.toNat : ℚ) + (decimal.toNat : ℚ) / 10 := by
  rw [tenths_toNat]
  push_cast
  ring

/-- A decimal byte that counts tenths is the last digit, and the integer byte is the integer part (R148). -/
theorem tenths_digits (integer : Byte) {decimal : Byte} (h : decimal.toNat ≤ 9) :
    (tenths integer decimal).toNat / 10 = integer.toNat ∧ (tenths integer decimal).toNat % 10 = decimal.toNat := by
  rw [tenths_toNat]
  constructor <;> omega

/-- A decimal byte of 10 or more carries into the integer part (R148). -/
theorem lt_tenths_div_ten (integer : Byte) {decimal : Byte} (h : 9 < decimal.toNat) :
    integer.toNat < (tenths integer decimal).toNat / 10 := by
  rw [tenths_toNat]
  omega

/-- Settles O27: each clause is the rule of one reading, at the humidity's bytes and at the temperature's. -/
theorem converterIsExactInTenths : Obligations.ConverterIsExactInTenths := by
  intro b
  exact ⟨tenths_toNat b[0] b[1], tenths_toNat b[2] b[3], tenths_le b[0] b[1], tenths_le b[2] b[3],
    tenths_cast_div_ten b[0] b[1], tenths_cast_div_ten b[2] b[3], tenths_digits b[0], tenths_digits b[2],
    lt_tenths_div_ten b[0], lt_tenths_div_ten b[2]⟩

end Sys2Proof.Machine

/-! PROOFS. The statements of spec/45_control.md: `NOP` (R160), `CLEAR` (R161), a decoding `POLL` (R162), and the clear
that `CLEAR` and a decoding `POLL` share (R164). -/

namespace Sys2Proof.Machine

/-! ### The shared clear, by the build parameter -/

theorem clearLive_pend_of_clrPend {s : State} (h : s.cfg.clrPend = true) : (clearLive s).pend = false := by
  simp [h]

theorem clearLive_pend_of_not_clrPend {s : State} (h : s.cfg.clrPend = false) : (clearLive s).pend = s.pend := by
  simp [h]

/-! ### A decoding `POLL`, on every register outside the result group -/

/-- The recorder group sees of a decoding `POLL` only the shared clear. -/
theorem decodePoll_pend (s : State) : (decodePoll s).pend = (clearLive s).pend := rfl

@[simp] theorem decodePoll_prise (s : State) : (decodePoll s).prise = s.prise := rfl

@[simp] theorem decodePoll_dur (s : State) : (decodePoll s).dur = s.dur := rfl

@[simp] theorem decodePoll_count (s : State) : (decodePoll s).count = 0 := rfl

@[simp] theorem decodePoll_port (s : State) : (decodePoll s).port = s.port := rfl

@[simp] theorem decodePoll_cfg (s : State) : (decodePoll s).cfg = s.cfg := rfl

theorem decodePoll_rsp_of_valid {s : State} (h : (decodePoll s).result.valid = true) :
    (decodePoll s).rsp = some .ok :=
  congrArg some (decodeResponse_eq_ok_iff.mpr h)

theorem decodePoll_rsp_of_not_valid {s : State} (h : (decodePoll s).result.valid = false) :
    (decodePoll s).rsp = some .csumErr :=
  congrArg some (decodeResponse_eq_csumErr_iff.mpr h)

/-! ### The commands -/

/-- Settles O30: with a complete frame the next state is `decodePoll`, read off field by field; otherwise `POLL` only
answers. -/
theorem pollDecodesAtExactlyForty : Obligations.PollDecodesAtExactlyForty := by
  refine fun s => ⟨fun hready => ?_, fun hnot => ?_⟩
  · have hdecode : DecodesTo (snapshot s) (decodePoll s).result := decodesTo_decodeFrame (snapshot s)
    exact ⟨_, exec_poll_of_ready hready, ⟨snapshot s, fun k => snapshot_getElem s k.val k.isLt, hdecode⟩,
      decodePoll_rvalid s, congrArg BitVec.toNat (decodePoll_count s), clearLive_pend_of_clrPend,
      clearLive_pend_of_not_clrPend, decodePoll_rsp_of_valid, decodePoll_rsp_of_not_valid, decodePoll_prise s,
      decodePoll_dur s, decodePoll_port s, decodePoll_cfg s⟩
  · exact ⟨_, exec_poll_of_not_ready hnot, respond_rsp _ s, rfl, rfl, rfl, rfl, rfl, rfl, rfl, rfl⟩

/-- Settles O28: `NOP` is `respond`, which leaves every register. -/
theorem nopOnlyAnswers : Obligations.NopOnlyAnswers := fun s =>
  ⟨_, exec_nop s, respond_rsp _ s, respond_pend _ s, respond_prise _ s, respond_dur _ s, respond_count _ s,
    respond_rvalid _ s, respond_result _ s, respond_port _ s, respond_cfg _ s⟩

/-- Settles O29: `CLEAR` is the shared clear and a response; the buffer reads as before because it is the same. -/
theorem clearEmptiesTheLiveSequence : Obligations.ClearEmptiesTheLiveSequence := fun s =>
  ⟨_, exec_clear s, respond_rsp _ _, congrArg BitVec.toNat (clearLive_count s), rfl, rfl, clearLive_pend_of_clrPend,
    clearLive_pend_of_not_clrPend, clearLive_prise s, clearLive_dur s, memRead_congr rfl, clearLive_rvalid s,
    clearLive_result s, clearLive_port s, clearLive_cfg s⟩

/-- Settles O31: both next states hold the recorder group of `clearLive s`. -/
theorem bothClearsLeaveTheSameRecorder : Obligations.BothClearsLeaveTheSameRecorder := fun s hready =>
  ⟨_, _, exec_clear s, exec_poll_of_ready hready, (decodePoll_pend s).symm, (decodePoll_prise s).symm,
    (decodePoll_dur s).symm, (decodePoll_count s).symm⟩

end Sys2Proof.Machine

/-! PROOFS. The statement of spec/60_exceptions.md: every command completes in every state with a response, and a step
is such a command, an idle step or a reset (R180). -/

namespace Sys2Proof.Machine

/-- Totality of the commands: the state carries no condition, so the same lemma serves the state a command leaves. -/
theorem exec_completes_with_response (i : Instr) (s : State) : ∃ t r, exec i s = .next t ∧ t.rsp = some r := by
  by_cases hi : i = .poll
  · subst hi
    by_cases hc : s.count.toNat = 40
    · exact ⟨_, _, exec_poll_of_ready hc, decodePoll_rsp s⟩
    · exact ⟨_, _, exec_poll_of_not_ready hc, respond_rsp _ s⟩
  · obtain ⟨t, hexec, hrsp⟩ := exec_rsp_of_ne_poll hi s
    exact ⟨t, _, hexec, hrsp⟩

/-- A command completes in every state, its response aside. -/
theorem exec_completes (i : Instr) (s : State) : ∃ t, exec i s = .next t := by
  obtain ⟨t, _, hexec, _⟩ := exec_completes_with_response i s
  exact ⟨t, hexec⟩

/-- A step completes in every state: it is idle, a command or a reset. -/
theorem step_completes (s : State) : ∃ t, step s = .next t := by
  obtain ⟨_, hidle⟩ | ⟨w, rest, _, hcommand⟩ | ⟨rest, _, hreset⟩ := step_cases s
  · exact ⟨_, hidle⟩
  · rw [hcommand]
    exact exec_completes (decodeWord w) { s with port := rest }
  · exact ⟨_, hreset⟩

/-- Settles O9: a command completes in every state, so also in the one a command has left. -/
theorem everyCommandCompletesWithAResponse : Obligations.EveryCommandCompletesWithAResponse := by
  refine ⟨fun i s => ?_, step_completes⟩
  obtain ⟨t, r, hexec, hrsp⟩ := exec_completes_with_response i s
  exact ⟨t, r, hexec, hrsp, fun j => exec_completes j t⟩

end Sys2Proof.Machine

/-! PROOFS. The statements about the whole block: the codec (R70 to R73), what a command and a step can do and what
they keep, runs of the two agents, the remaining properties of the stages, the buffer, the outputs, lines of text, and
the host. -/

namespace Sys2Proof

/-! ### Decoding and encoding (R72, R73) -/

theorem decodeWord_encode (i : Instr) : decodeWord (encode i) = i := by
  cases i with
  | nop => rfl
  | edgeF ts => exact decodeWord_commandWord_edge ts 0
  | edgeR ts => exact decodeWord_commandWord_edge ts 1
  | clear => rfl
  | poll => rfl

/-- The level bit of an `EDGE` word is recovered from the command. -/
theorem encode_onEdge (ts : Tick) (lvl : BitVec 1) : encode (onEdge (levelOfBit lvl) ts) = commandWord ts lvl 1#2 := by
  rcases BitVec.eq_zero_or_eq_one lvl with rfl | rfl <;> rfl

/-- Without operands, the encoder writes `op` alone. -/
theorem encode_decodeWord_zero_fields {op : BitVec 2} (h : op ≠ 1) :
    encode (decodeWord (commandWord 0 0 op)) = commandWord 0 0 op := by
  revert op
  decide

theorem encode_decodeWord_commandWord (ts : Tick) (lvl : BitVec 1) (op : BitVec 2) :
    encode (decodeWord (commandWord ts lvl op)) = canonicalWord (commandWord ts lvl op) := by
  rw [canonicalWord, opField_commandWord]
  split
  · next hop => rw [hop, decodeWord_commandWord_edge, encode_onEdge]
  · next hop =>
    rw [decodeWord_commandWord_of_op_ne_one hop lvl 0 ts 0, encode_decodeWord_zero_fields hop, commandWord_and_three]

theorem encode_decodeWord (w : CommandWord) : encode (decodeWord w) = canonicalWord w := by
  rw [← commandWord_fields w, encode_decodeWord_commandWord]

theorem decodeBits_of_le {n : Nat} (h : 2 ^ 35 ≤ n) : decodeBits n = .error .wordTooWide :=
  if_neg h.not_gt

/-- Settles O3: `EDGE` words carry their three fields, the other commands their `op` alone. -/
theorem decodeAndEncodeAgree : Obligations.DecodeAndEncodeAgree :=
  ⟨fun i _ => decodeWord_encode i, encode_decodeWord, fun _ => decodeBits_of_le⟩

/-- Settles O1: seven closed words. -/
theorem specExampleWordsDecode : Obligations.SpecExampleWordsDecode := by
  unfold Obligations.SpecExampleWordsDecode
  decide

end Sys2Proof

namespace Sys2Proof.Machine

/-! ### What a command can do (R72) -/

/-- The transitions of the block: `Effect i s t` when the command `i` takes `s` to `t`, one rule for each case that R90,
R91 and R160 to R162 tell apart. -/
inductive Effect : Instr → State → State → Prop where
  | nop (s : State) : Effect .nop s (respond .nothing s)
  | rise (ts : Tick) (s : State) : Effect (.edgeR ts) s (respond .nothing (setPendingRise ts s))
  | ignoredFall (ts : Tick) {s : State} (hpend : s.pend = false) : Effect (.edgeF ts) s (respond .nothing s)
  | closingFall (ts : Tick) {s : State} (hpend : s.pend = true) :
      Effect (.edgeF ts) s (respond .nothing (closePulse ts s))
  | clear (s : State) : Effect .clear s (respond .nothing (clearLive s))
  | decode {s : State} (hready : s.count.toNat = 40) : Effect .poll s (decodePoll s)
  | notReady {s : State} (hcount : s.count.toNat ≠ 40) : Effect .poll s (respond .notReady s)

theorem exec_of_effect {i : Instr} {s t : State} (h : Effect i s t) : exec i s = .next t := by
  cases h with
  | nop => exact exec_nop s
  | rise ts => exact exec_edgeR ts s
  | ignoredFall ts hpend => exact exec_edgeF_of_not_pend hpend
  | closingFall ts hpend => exact exec_edgeF_of_pend hpend
  | clear => exact exec_clear s
  | decode hready => exact exec_poll_of_ready hready
  | notReady hcount => exact exec_poll_of_not_ready hcount

/-- Every command in every state has an effect. -/
theorem exists_effect (i : Instr) (s : State) : ∃ t, Effect i s t := by
  cases i with
  | nop => exact ⟨_, .nop s⟩
  | edgeF ts =>
    cases hpend : s.pend with
    | false => exact ⟨_, .ignoredFall ts hpend⟩
    | true => exact ⟨_, .closingFall ts hpend⟩
  | edgeR ts => exact ⟨_, .rise ts s⟩
  | clear => exact ⟨_, .clear s⟩
  | poll =>
    by_cases hcount : s.count.toNat = 40
    · exact ⟨_, .decode hcount⟩
    · exact ⟨_, .notReady hcount⟩

/-- Everything a command can do. -/
theorem exec_cases (i : Instr) (s : State) : ∃ t, exec i s = .next t ∧ Effect i s t := by
  obtain ⟨t, heffect⟩ := exists_effect i s
  exact ⟨t, exec_of_effect heffect, heffect⟩

theorem effect_of_exec {i : Instr} {s t : State} (h : exec i s = .next t) : Effect i s t := by
  obtain ⟨u, hexec, heffect⟩ := exec_cases i s
  rw [hexec] at h
  cases h
  exact heffect

/-! ### Every step keeps the invariants (R36) -/

theorem countPulse_toNat_le (c : CountWord) : (countPulse c).toNat ≤ 41 := by
  rw [countPulse_toNat]
  split <;> omega

theorem closePulse_dur (ts : Tick) (s : State) :
    (closePulse ts s).dur = (appendDuration (pulseLength ts s.prise) s).dur := rfl

/-- `Inv` reads four fields only. -/
theorem Inv.of_same_fields {s t : State} (h : Inv s) (hcount : t.count = s.count) (hdur : t.dur = s.dur)
    (hrvalid : t.rvalid = s.rvalid) (hresult : t.result = s.result) : Inv t where
  count_le := hcount ▸ h.count_le
  dur_wf := hdur ▸ h.dur_wf
  result_decodes := by
    rw [hrvalid, hresult]
    exact h.result_decodes

theorem inv_closePulse {ts : Tick} {s : State} (h : Inv s) : Inv (closePulse ts s) where
  count_le := by
    rw [closePulse_count]
    exact countPulse_toNat_le s.count
  dur_wf := appendDuration_dur_wf h.dur_wf
  result_decodes := by
    rw [closePulse_rvalid, closePulse_result]
    exact h.result_decodes

theorem inv_clearLive {s : State} (h : Inv s) : Inv (clearLive s) where
  count_le := Nat.zero_le 41
  dur_wf := h.dur_wf
  result_decodes := h.result_decodes

/-- The new result is the decode of the snapshot. -/
theorem inv_decodePoll {s : State} (h : Inv s) : Inv (decodePoll s) where
  count_le := Nat.zero_le 41
  dur_wf := h.dur_wf
  result_decodes := fun _ => ⟨snapshot s, decodesTo_decodeFrame (snapshot s)⟩

theorem inv_reset : Inv State.reset where
  count_le := Nat.zero_le 41
  dur_wf := Memory.wf_nil
  result_decodes := fun h => absurd h Bool.false_ne_true

theorem inv_of_effect {i : Instr} {s t : State} (heffect : Effect i s t) (h : Inv s) : Inv t := by
  cases heffect with
  | nop => exact h.of_same_fields rfl rfl rfl rfl
  | rise ts => exact h.of_same_fields rfl rfl rfl rfl
  | ignoredFall ts hpend => exact h.of_same_fields rfl rfl rfl rfl
  | closingFall ts hpend => exact (inv_closePulse h).of_same_fields rfl rfl rfl rfl
  | clear => exact (inv_clearLive h).of_same_fields rfl rfl rfl rfl
  | decode hready => exact inv_decodePoll h
  | notReady hcount => exact h.of_same_fields rfl rfl rfl rfl

/-- Settles O38: an idle step and a command keep `Inv`, and a reset leads to the fields of `State.reset`. -/
theorem everyStepKeepsTheInvariants : Obligations.EveryStepKeepsTheInvariants := by
  intro s h
  obtain ⟨_, hidle⟩ | ⟨w, rest, _, hcommand⟩ | ⟨rest, _, hreset⟩ := step_cases s
  · exact ⟨_, hidle, h.of_same_fields rfl rfl rfl rfl⟩
  · obtain ⟨t, hexec, heffect⟩ := exec_cases (decodeWord w) { s with port := rest }
    exact ⟨t, hcommand.trans hexec, inv_of_effect heffect (h.of_same_fields rfl rfl rfl rfl)⟩
  · exact ⟨_, hreset, inv_reset.of_same_fields rfl rfl rfl rfl⟩

/-- Settles O39: zero count, empty buffer, and no result held. -/
theorem resetHasTheInvariants : Obligations.ResetHasTheInvariants := inv_reset

/-! ### What has no value is never observed (R23, R24, R27, R40) -/

theorem snapshot_congr {s s' : State} (h : ∀ k < 40, memRead k s = memRead k s') : snapshot s = snapshot s' := by
  apply Vector.ext
  intro k hk
  rw [snapshot_getElem, snapshot_getElem, h k hk]

/-- The live durations, which a decode reads, are among the entries that must agree. -/
theorem SameUpToUnspecified.snapshot_eq {s t : State} (h : SameUpToUnspecified s t) (hready : s.count.toNat = 40) :
    snapshot s = snapshot t :=
  snapshot_congr fun k hk => h.dur k (by omega)

theorem SameUpToUnspecified.observe_eq {s t : State} (h : SameUpToUnspecified s t) : observe s = observe t := by
  have hstatus : status s = status t := by rw [status, status, h.pend, h.count]
  have hhigh : readingHigh s = readingHigh t := by rw [readingHigh, readingHigh, h.rvalid]
  have hout : resultOutputs s = resultOutputs t := by
    cases hv : s.rvalid with
    | false => rw [resultOutputs_of_not_rvalid hv, resultOutputs_of_not_rvalid (h.rvalid ▸ hv)]
    | true => rw [resultOutputs_of_rvalid hv, resultOutputs_of_rvalid (h.rvalid ▸ hv), h.result hv]
  have hreading : reading s = reading t := by rw [reading, reading, readingLow, readingLow, hout, hhigh]
  rw [observe, observe, h.rsp, hstatus, hout, hhigh, hreading]

theorem SameUpToUnspecified.respond {s t : State} (h : SameUpToUnspecified s t) (r : Response) :
    SameUpToUnspecified (respond r s) (respond r t) :=
  { h with rsp := rfl }

theorem SameUpToUnspecified.withPort {s t : State} (h : SameUpToUnspecified s t) (p : List Input) :
    SameUpToUnspecified { s with port := p } { t with port := p } :=
  { h with port := rfl }

theorem SameUpToUnspecified.setPendingRise {s t : State} (h : SameUpToUnspecified s t) (ts : Tick) :
    SameUpToUnspecified (setPendingRise ts s) (setPendingRise ts t) :=
  { h with pend := rfl, prise := fun _ => rfl }

/-- A cleared sequence leaves no entry to compare. -/
theorem SameUpToUnspecified.clearLive {s t : State} (h : SameUpToUnspecified s t) :
    SameUpToUnspecified (clearLive s) (clearLive t) :=
  { h with
    pend := by rw [clearLive_pend, clearLive_pend, h.pend, h.cfg]
    prise := fun hpend => h.prise (Bool.and_eq_true_iff.mp hpend).1
    count := rfl
    dur := fun k hk => absurd hk (Nat.not_lt_zero k) }

theorem SameUpToUnspecified.writeResult {s t : State} (h : SameUpToUnspecified s t) (r : ResultRegs) :
    SameUpToUnspecified (writeResult r s) (writeResult r t) :=
  { h with rvalid := rfl, result := fun _ => rfl }

/-- A decode reads the 40 live entries, and then every result register has a value. -/
theorem SameUpToUnspecified.decodePoll {s t : State} (h : SameUpToUnspecified s t) (hready : s.count.toNat = 40) :
    SameUpToUnspecified (decodePoll s) (decodePoll t) := by
  rw [Machine.decodePoll, Machine.decodePoll, h.snapshot_eq hready]
  exact (h.writeResult _).clearLive.respond _

/-- Appending adds one live entry, the new duration, to both. -/
theorem SameUpToUnspecified.dur_appendDuration {s t : State} (h : SameUpToUnspecified s t) (hs : s.dur.wf = true)
    (ht : t.dur.wf = true) (d : Tick) {k : Nat} (hk : k < min (countPulse s.count).toNat 40) :
    memRead k (appendDuration d s) = memRead k (appendDuration d t) := by
  rw [countPulse_toNat] at hk
  rcases Nat.lt_or_ge s.count.toNat 40 with hroom | hfull
  · rw [if_pos hroom] at hk
    rw [memRead_appendDuration hs hroom, memRead_appendDuration ht (h.count ▸ hroom), h.count]
    split
    · rfl
    · exact h.dur k (by rw [h.count] at hk ⊢; omega)
  · rw [memRead_congr (appendDuration_dur_of_full hfull), memRead_congr (appendDuration_dur_of_full (h.count ▸ hfull))]
    exact h.dur k (by omega)

/-- A fall with a pending rise reads `PRISE`, which then has a value. -/
theorem SameUpToUnspecified.closePulse {s t : State} (h : SameUpToUnspecified s t) (hs : s.dur.wf = true)
    (ht : t.dur.wf = true) (hpend : s.pend = true) (ts : Tick) :
    SameUpToUnspecified (closePulse ts s) (closePulse ts t) where
  pend := rfl
  prise := fun hp => absurd hp Bool.false_ne_true
  count := by rw [closePulse_count, closePulse_count, h.count]
  dur := fun k hk => by
    rw [closePulse_count] at hk
    rw [closePulse_dur, closePulse_dur, ← h.prise hpend]
    exact h.dur_appendDuration hs ht _ hk
  rvalid := by rw [closePulse_rvalid, closePulse_rvalid, h.rvalid]
  result := by
    rw [closePulse_rvalid, closePulse_result, closePulse_result]
    exact h.result
  rsp := by simp [Machine.closePulse, h.rsp]
  port := by rw [closePulse_port, closePulse_port, h.port]
  cfg := by rw [closePulse_cfg, closePulse_cfg, h.cfg]

theorem SameUpToUnspecified.applyReset {s t : State} (h : SameUpToUnspecified s t) :
    SameUpToUnspecified (applyReset s) (applyReset t) where
  pend := rfl
  prise := fun _ => rfl
  count := rfl
  dur := fun _ _ => rfl
  rvalid := rfl
  result := fun _ => rfl
  rsp := rfl
  port := h.port
  cfg := h.cfg

/-- The same command takes both states by the same rule. -/
theorem SameUpToUnspecified.effect {s t s' : State} {i : Instr} (h : SameUpToUnspecified s t) (hs : s.dur.wf = true)
    (ht : t.dur.wf = true) (heffect : Effect i s s') : ∃ t', Effect i t t' ∧ SameUpToUnspecified s' t' := by
  cases heffect with
  | nop => exact ⟨_, .nop t, h.respond _⟩
  | rise ts => exact ⟨_, .rise ts t, (h.setPendingRise ts).respond _⟩
  | ignoredFall ts hpend => exact ⟨_, .ignoredFall ts (h.pend ▸ hpend), h.respond _⟩
  | closingFall ts hpend => exact ⟨_, .closingFall ts (h.pend ▸ hpend), (h.closePulse hs ht hpend ts).respond _⟩
  | clear => exact ⟨_, .clear t, h.clearLive.respond _⟩
  | decode hready => exact ⟨_, .decode (h.count ▸ hready), h.decodePoll hready⟩
  | notReady hcount => exact ⟨_, .notReady (h.count ▸ hcount), h.respond _⟩

theorem step_of_command {s : State} {w : CommandWord} {rest : List Input} (h : s.port = .command w :: rest) :
    step s = exec (decodeWord w) { s with port := rest } := by
  rw [step, takeInput, h]

theorem step_of_reset {s : State} {rest : List Input} (h : s.port = .reset :: rest) :
    step s = .next (applyReset { s with port := rest }) := by
  rw [step, takeInput, h]

theorem step_of_empty_port {s : State} (h : s.port = []) : step s = .next (idle s) := by
  rw [step, takeInput, h]

/-- Settles O49: both states hold the same next input, and each of the three kinds of step keeps the relation, which
fixes every output. -/
theorem unspecifiedContentsAreNeverObserved : Obligations.UnspecifiedContentsAreNeverObserved := by
  intro s t hs ht h
  suffices hstep : ∃ s' t', step s = .next s' ∧ step t = .next t' ∧ SameUpToUnspecified s' t' by
    obtain ⟨s', t', hs', ht', h'⟩ := hstep
    exact ⟨s', t', hs', ht', h', h'.observe_eq⟩
  obtain ⟨hport, hidle⟩ | ⟨w, rest, hport, hcommand⟩ | ⟨rest, hport, hreset⟩ := step_cases s
  · exact ⟨_, _, hidle, step_of_empty_port (h.port ▸ hport), h.respond _⟩
  · obtain ⟨s', hexec, heffect⟩ := exec_cases (decodeWord w) { s with port := rest }
    obtain ⟨t', heffect', h'⟩ := (h.withPort rest).effect hs ht heffect
    exact ⟨s', t', hcommand.trans hexec, (step_of_command (h.port ▸ hport)).trans (exec_of_effect heffect'), h'⟩
  · exact ⟨_, _, hreset, step_of_reset (h.port ▸ hport), (h.withPort rest).applyReset⟩

/-! ### Steps and runs (R10) -/

/-- Settles O6: the three cases of the port. -/
theorem stepRunsTheNextInput : Obligations.StepRunsTheNextInput := fun _ _ _ =>
  ⟨step_of_command, step_of_reset, step_of_empty_port⟩

/-- A word of the opcode table's numbering that has a command reaches the port unchanged. -/
theorem decodeWord_of_decodeTableWord {nbits w : Nat} {i : Instr} (h : decodeTableWord nbits w = some i) :
    decodeWord (BitVec.ofNat 35 (w % 2 ^ nbits)) = i := by
  rw [decodeTableWord] at h
  rcases Nat.lt_or_ge (w % 2 ^ nbits) (2 ^ 35) with hlt | hge
  · rw [decodeBits_of_lt hlt] at h
    exact Option.some.inj h
  · rw [decodeBits_of_le hge] at h
    cases h

/-- Settles O7: the placed word is the next entry of the port, and taking it gives back the state before the placing. -/
theorem placedWordIsExecutedNext : Obligations.PlacedWordIsExecutedNext := by
  intro nbits w i s h
  have hstep : step (s.withFetchWord nbits w) = exec (decodeWord (BitVec.ofNat 35 (w % 2 ^ nbits))) s :=
    step_of_command rfl
  rw [hstep, decodeWord_of_decodeTableWord h]

/-- No command reads or writes the inputs to come or the build parameter. -/
theorem Effect.port_eq {i : Instr} {s t : State} (h : Effect i s t) : t.port = s.port := by
  cases h with
  | closingFall ts hpend => exact closePulse_port ts s
  | _ => rfl

theorem Effect.cfg_eq {i : Instr} {s t : State} (h : Effect i s t) : t.cfg = s.cfg := by
  cases h with
  | closingFall ts hpend => exact closePulse_cfg ts s
  | _ => rfl

theorem closePulse_withPort (ts : Tick) (s : State) (p : List Input) :
    closePulse ts { s with port := p } = { closePulse ts s with port := p } := by
  unfold closePulse appendDuration
  split <;> rfl

theorem Effect.withPort {i : Instr} {s t : State} (h : Effect i s t) (p : List Input) :
    Effect i { s with port := p } { t with port := p } := by
  cases h with
  | nop => exact .nop { s with port := p }
  | rise ts => exact .rise ts { s with port := p }
  | ignoredFall ts hpend => exact .ignoredFall ts hpend
  | closingFall ts hpend =>
    have hfall := Effect.closingFall ts (s := { s with port := p }) hpend
    rwa [closePulse_withPort] at hfall
  | clear => exact .clear { s with port := p }
  | decode hready => exact .decode (s := { s with port := p }) hready
  | notReady hcount => exact .notReady (s := { s with port := p }) hcount

/-- Settles O8, by induction on the words: the first is executed by the first step, which leaves the later ones on the
port, and a command does not see them there. -/
theorem portWordsRunInOrder : Obligations.PortWordsRunInOrder := by
  intro ws rest
  induction ws with
  | nil =>
    rintro s rfl
    exact ⟨s, rfl, rfl⟩
  | cons w ws ih =>
    intro s hport
    obtain ⟨t, hexec, heffect⟩ := exec_cases (decodeWord w) { s with port := ws.map Input.command ++ rest }
    obtain ⟨u, hcore, hrun⟩ := ih t heffect.port_eq
    exact ⟨u, (core_run_succ ((step_of_command hport).trans hexec)).trans hcore,
      (runCommands_cons (exec_of_effect (heffect.withPort rest))).trans hrun⟩

/-- The induction over runs: what every command of the list keeps holds at the end. -/
theorem runCommands_of_invariant {P : State → Prop} {cmds : List Instr} {s : State}
    (hkeep : ∀ i ∈ cmds, ∀ s t, Effect i s t → P s → P t) (hs : P s) : ∃ t, runCommands cmds s = some t ∧ P t := by
  induction cmds generalizing s with
  | nil => exact ⟨s, rfl, hs⟩
  | cons i is ih =>
    obtain ⟨t, hexec, heffect⟩ := exec_cases i s
    rw [runCommands_cons hexec]
    exact ih (fun j hj => hkeep j (List.mem_cons_of_mem i hj)) (hkeep i List.mem_cons_self s t heffect hs)

/-! ### The error kinds (R181, R182) -/

theorem isFallingEdge_iff {i : Instr} : isFallingEdge i = true ↔ ∃ ts, i = .edgeF ts := by
  cases i <;> simp [isFallingEdge]

theorem meets_incompleteFrame_iff {i : Instr} {s : State} :
    meetsErrorKind .incompleteFrame i s = true ↔ i = .poll ∧ s.count.toNat < 40 := by
  simp [meetsErrorKind, hasRoom_iff]

theorem meets_overCount_iff {i : Instr} {s : State} :
    meetsErrorKind .overCount i s = true ↔
      (i = .poll ∧ s.count.toNat = 41) ∨ ((∃ ts, i = .edgeF ts) ∧ s.pend = true ∧ 40 ≤ s.count.toNat) := by
  simp [meetsErrorKind, overflowed_iff, isFallingEdge_iff, hasRoom_eq_false_iff, and_assoc]

theorem meets_checksumMismatch_iff {i : Instr} {s : State} :
    meetsErrorKind .checksumMismatch i s = true ↔
      i = .poll ∧ s.count.toNat = 40 ∧ (decodeFrame (snapshot s)).valid = false := by
  simp [meetsErrorKind, frameReady_iff, and_assoc]

theorem meets_malformedEdgeOrder_iff {i : Instr} {s : State} :
    meetsErrorKind .malformedEdgeOrder i s = true ↔ (∃ ts, i = .edgeF ts) ∧ s.pend = false := by
  simp [meetsErrorKind, isFallingEdge_iff]

/-- The one kind a command can meet: a `POLL` by `COUNT`, a falling edge by `PEND`. The other commands meet none, and
are given the kind that no command meets. -/
def errorKindOf : Instr → State → ErrorKind
  | .poll, s =>
    if s.count.toNat < 40 then .incompleteFrame else if s.count.toNat = 40 then .checksumMismatch else .overCount
  | .edgeF _, s => if s.pend then .overCount else .malformedEdgeOrder
  | _, _ => .connectionFailure

theorem eq_errorKindOf_of_meets {k : ErrorKind} {i : Instr} {s : State} (h : meetsErrorKind k i s = true) :
    k = errorKindOf i s := by
  cases k with
  | connectionFailure => cases h
  | incompleteFrame =>
    obtain ⟨rfl, hcount⟩ := meets_incompleteFrame_iff.mp h
    simp [errorKindOf, hcount]
  | overCount =>
    obtain ⟨rfl, hcount⟩ | ⟨⟨ts, rfl⟩, hpend, _⟩ := meets_overCount_iff.mp h
    · simp [errorKindOf, hcount]
    · simp [errorKindOf, hpend]
  | checksumMismatch =>
    obtain ⟨rfl, hcount, _⟩ := meets_checksumMismatch_iff.mp h
    simp [errorKindOf, hcount]
  | malformedEdgeOrder =>
    obtain ⟨⟨ts, rfl⟩, hpend⟩ := meets_malformedEdgeOrder_iff.mp h
    simp [errorKindOf, hpend]

theorem Effect.eq_respond_of_poll_not_ready {s t : State} (h : Effect .poll s t) (hcount : s.count.toNat ≠ 40) :
    t = respond .notReady s := by
  cases h with
  | decode hready => exact absurd hready hcount
  | notReady _ => rfl

theorem Effect.eq_decodePoll_of_ready {s t : State} (h : Effect .poll s t) (hready : s.count.toNat = 40) :
    t = decodePoll s := by
  cases h with
  | decode _ => rfl
  | notReady hcount => exact absurd hready hcount

theorem Effect.eq_closePulse_of_pend {ts : Tick} {s t : State} (h : Effect (.edgeF ts) s t) (hpend : s.pend = true) :
    t = respond .nothing (closePulse ts s) := by
  cases h with
  | ignoredFall _ hnone => exact absurd (hpend.symm.trans hnone) Bool.noConfusion
  | closingFall _ _ => rfl

theorem Effect.eq_respond_of_not_pend {ts : Tick} {s t : State} (h : Effect (.edgeF ts) s t) (hpend : s.pend = false) :
    t = respond .nothing s := by
  cases h with
  | ignoredFall _ _ => rfl
  | closingFall _ hsome => exact absurd (hsome.symm.trans hpend) Bool.noConfusion

/-- Kind (b'): the 41st pulse raises `OVF`, and a `POLL` finds it raised. -/
theorem Effect.overCount {i : Instr} {s t : State} (h : Effect i s t) (hmeets : meetsErrorKind .overCount i s = true) :
    overflowed t.count = true ∧ (i = .poll → t.rsp = some .notReady) ∧ t.rvalid = s.rvalid ∧ t.result = s.result := by
  obtain ⟨rfl, hcount⟩ | ⟨⟨ts, rfl⟩, hpend, hfull⟩ := meets_overCount_iff.mp hmeets
  · rw [h.eq_respond_of_poll_not_ready (by omega)]
    exact ⟨overflowed_iff.mpr hcount, fun _ => rfl, rfl, rfl⟩
  · rw [h.eq_closePulse_of_pend hpend]
    refine ⟨?_, fun hpoll => Instr.noConfusion hpoll, closePulse_rvalid ts s, closePulse_result ts s⟩
    rw [respond_count, closePulse_count, overflowed_countPulse, decide_eq_true hfull]

/-- Settles O10: `errorKindOf` makes the kinds exclusive, and each kind selects one rule of `Effect`. -/
theorem eachErrorKindIsItsOwnValue : Obligations.EachErrorKindIsItsOwnValue := by
  intro i s
  obtain ⟨t, hexec, heffect⟩ := exec_cases i s
  refine ⟨fun k k' hk hk' => (eq_errorKindOf_of_meets hk).trans (eq_errorKindOf_of_meets hk').symm, rfl, t, hexec,
    fun hincomplete => ?_, heffect.overCount, fun hchecksum => ?_, fun hmalformed => ?_⟩
  · obtain ⟨rfl, hcount⟩ := meets_incompleteFrame_iff.mp hincomplete
    rw [heffect.eq_respond_of_poll_not_ready hcount.ne]
    exact ⟨rfl, rfl, rfl, rfl⟩
  · obtain ⟨rfl, hready, hvalid⟩ := meets_checksumMismatch_iff.mp hchecksum
    rw [heffect.eq_decodePoll_of_ready hready]
    exact ⟨decodePoll_rsp_of_not_valid hvalid, hvalid, rfl, snapshot s, decodesTo_decodeFrame (snapshot s)⟩
  · obtain ⟨⟨ts, rfl⟩, hpend⟩ := meets_malformedEdgeOrder_iff.mp hmalformed
    rw [heffect.eq_respond_of_not_pend hpend]
    exact ⟨rfl, rfl⟩

/-! ### The pending rise after a run (R93) -/

/-- What R93 says of the pending rise of `t`, reached from `s` by a run whose last `EDGE` command is `last`. -/
structure PendingDecidedBy (last : Option Instr) (s t : State) : Prop where
  kept : last = none → t.pend = s.pend ∧ t.prise = s.prise
  rise : ∀ ts, last = some (.edgeR ts) → t.pend = true ∧ t.prise = ts
  fall : ∀ ts, last = some (.edgeF ts) → t.pend = false

theorem PendingDecidedBy.of_same_pending {last : Option Instr} {s t u : State} (h : PendingDecidedBy last s t)
    (hpend : u.pend = t.pend) (hprise : u.prise = t.prise) : PendingDecidedBy last s u where
  kept := by rw [hpend, hprise]; exact h.kept
  rise := by rw [hpend, hprise]; exact h.rise
  fall := by rw [hpend]; exact h.fall

/-- With `CLR_PEND = 0` the commands of the poll agent leave the marker and its timestamp. -/
theorem Effect.pending_eq_of_not_edge {i : Instr} {s t : State} (h : Effect i s t) (hagent : i.agent ≠ .edge)
    (hcfg : s.cfg.clrPend = false) : t.pend = s.pend ∧ t.prise = s.prise := by
  cases h with
  | nop => exact ⟨rfl, rfl⟩
  | rise ts => exact absurd rfl hagent
  | ignoredFall ts hpend => exact absurd rfl hagent
  | closingFall ts hpend => exact absurd rfl hagent
  | clear => exact ⟨clearLive_pend_of_not_clrPend hcfg, rfl⟩
  | decode hready => exact ⟨clearLive_pend_of_not_clrPend hcfg, rfl⟩
  | notReady hcount => exact ⟨rfl, rfl⟩

/-- An `EDGE` command decides the pending rise whatever came before it. -/
theorem Effect.pendingDecidedBy_of_edge {i : Instr} {s t : State} (s₀ : State) (h : Effect i s t)
    (hagent : i.agent = .edge) : PendingDecidedBy (some i) s₀ t := by
  cases h with
  | nop => cases hagent
  | rise ts => exact ⟨nofun, fun _ heq => by cases heq; exact ⟨rfl, rfl⟩, nofun⟩
  | ignoredFall ts hpend => exact ⟨nofun, nofun, fun _ _ => hpend⟩
  | closingFall ts hpend => exact ⟨nofun, nofun, fun _ _ => rfl⟩
  | clear => cases hagent
  | decode hready => cases hagent
  | notReady hcount => cases hagent

theorem runCommands_concat {cmds : List Instr} {i : Instr} {s t u : State} (hrun : runCommands cmds s = some t)
    (heffect : Effect i t u) : runCommands (cmds ++ [i]) s = some u := by
  rw [runCommands_append, hrun, Option.bind_some, runCommands_cons (exec_of_effect heffect)]
  rfl

/-- By induction on the run from its end: the last command either is the last `EDGE` or leaves the pending rise. -/
theorem runCommands_pendingDecidedBy (cmds : List Instr) {s : State} (hcfg : s.cfg.clrPend = false) :
    ∃ t, runCommands cmds s = some t ∧ t.cfg = s.cfg ∧ PendingDecidedBy (lastEdge cmds) s t := by
  induction cmds using List.reverseRecOn with
  | nil => exact ⟨s, rfl, rfl, fun _ => ⟨rfl, rfl⟩, nofun, nofun⟩
  | append_singleton cmds i ih =>
    obtain ⟨t, hrun, hkeep, hdecided⟩ := ih
    obtain ⟨u, _, heffect⟩ := exec_cases i t
    refine ⟨u, runCommands_concat hrun heffect, heffect.cfg_eq.trans hkeep, ?_⟩
    rw [lastEdge_concat]
    split
    · next hagent => exact heffect.pendingDecidedBy_of_edge s hagent
    · next hagent =>
      obtain ⟨hpend, hprise⟩ := heffect.pending_eq_of_not_edge hagent (by rwa [hkeep])
      exact hdecided.of_same_pending hpend hprise

/-- Settles O14, by `runCommands_pendingDecidedBy`. -/
theorem lastEdgeDecidesThePendingRise : Obligations.LastEdgeDecidesThePendingRise := by
  intro cmds s hcfg
  obtain ⟨t, hrun, _, hdecided⟩ := runCommands_pendingDecidedBy cmds hcfg
  exact ⟨t, hrun, hdecided.kept, hdecided.rise, hdecided.fall⟩

/-! ### After a 41st pulse (R25) -/

/-- What outlasts every command but `CLEAR` at `COUNT = 41`: the count, the buffer and the result group. -/
structure OverCountLasts (s t : State) : Prop where
  count : t.count.toNat = 41
  dur : t.dur = s.dur
  rvalid : t.rvalid = s.rvalid
  result : t.result = s.result

theorem OverCountLasts.trans {s t u : State} (h : OverCountLasts s t) (h' : OverCountLasts t u) : OverCountLasts s u :=
  ⟨h'.count, h'.dur.trans h.dur, h'.rvalid.trans h.rvalid, h'.result.trans h.result⟩

theorem Effect.overCountLasts {i : Instr} {s t : State} (h : Effect i s t) (hover : s.count.toNat = 41)
    (hi : i ≠ .clear) : OverCountLasts s t := by
  cases h with
  | nop => exact ⟨hover, rfl, rfl, rfl⟩
  | rise ts => exact ⟨hover, rfl, rfl, rfl⟩
  | ignoredFall ts hpend => exact ⟨hover, rfl, rfl, rfl⟩
  | closingFall ts hpend =>
    refine ⟨?_, closePulse_dur_of_full (by omega), closePulse_rvalid ts s, closePulse_result ts s⟩
    rw [respond_count, closePulse_count, countPulse_toNat, if_neg (by omega)]
  | clear => exact absurd rfl hi
  | decode hready => omega
  | notReady hcount => exact ⟨hover, rfl, rfl, rfl⟩

/-- Settles O16: `OverCountLasts` holds along the run, and at 41 a `POLL` is not ready. -/
theorem overCountLastsUntilClear : Obligations.OverCountLastsUntilClear := by
  refine fun s hover => ⟨fun cmds hclear => ?_, _, exec_clear s, rfl⟩
  have hkeep : ∀ i ∈ cmds, ∀ t u, Effect i t u → OverCountLasts s t → OverCountLasts s u :=
    fun i hi t u heffect h => h.trans (heffect.overCountLasts h.count fun hc => hclear (hc ▸ hi))
  obtain ⟨t, hrun, h⟩ := runCommands_of_invariant hkeep ⟨hover, rfl, rfl, rfl⟩
  have hcount := h.count
  exact ⟨t, _, hrun, hcount, h.dur, h.rvalid, h.result, exec_poll_of_not_ready (by omega), rfl⟩

/-! ### The writers of each register (R20) -/

theorem clearLive_pend_of_ne {s : State} (h : (clearLive s).pend ≠ s.pend) :
    s.cfg.clrPend = true ∧ (clearLive s).pend = false := by
  cases hcfg : s.cfg.clrPend with
  | false => exact absurd (clearLive_pend_of_not_clrPend hcfg) h
  | true => exact ⟨rfl, clearLive_pend_of_clrPend hcfg⟩

/-- Column "written by", `PEND`. -/
theorem Effect.pend_writers {i : Instr} {s t : State} (h : Effect i s t) (hne : t.pend ≠ s.pend) :
    (∃ ts, i = .edgeR ts ∧ t.pend = true) ∨ (∃ ts, i = .edgeF ts ∧ t.pend = false) ∨
      (s.cfg.clrPend = true ∧ t.pend = false ∧ (i = .clear ∨ (i = .poll ∧ s.count.toNat = 40))) := by
  cases h with
  | nop => exact absurd rfl hne
  | rise ts => exact .inl ⟨ts, rfl, rfl⟩
  | ignoredFall ts hpend => exact absurd rfl hne
  | closingFall ts hpend => exact .inr (.inl ⟨ts, rfl, rfl⟩)
  | clear =>
    obtain ⟨hcfg, hpend⟩ := clearLive_pend_of_ne hne
    exact .inr (.inr ⟨hcfg, hpend, .inl rfl⟩)
  | decode hready =>
    obtain ⟨hcfg, hpend⟩ := clearLive_pend_of_ne hne
    exact .inr (.inr ⟨hcfg, hpend, .inr ⟨rfl, hready⟩⟩)
  | notReady hcount => exact absurd rfl hne

/-- Column "written by", `PRISE`. -/
theorem Effect.prise_writers {i : Instr} {s t : State} (h : Effect i s t) (hne : t.prise ≠ s.prise) :
    ∃ ts, i = .edgeR ts ∧ t.prise = ts := by
  cases h with
  | rise ts => exact ⟨ts, rfl, rfl⟩
  | closingFall ts hpend => exact absurd (closePulse_prise ts s) hne
  | _ => exact absurd rfl hne

/-- Column "written by", `DUR`. -/
theorem Effect.dur_writers {i : Instr} {s t : State} (h : Effect i s t) (hne : t.dur ≠ s.dur) :
    (∃ ts, i = .edgeF ts) ∧ s.pend = true ∧ s.count.toNat < 40 := by
  cases h with
  | closingFall ts hpend =>
    exact ⟨⟨ts, rfl⟩, hpend, Nat.lt_of_not_le fun hfull => hne (closePulse_dur_of_full hfull)⟩
  | _ => exact absurd rfl hne

/-- Column "written by", `COUNT`. -/
theorem Effect.count_writers {i : Instr} {s t : State} (h : Effect i s t) (hne : t.count ≠ s.count) :
    ((∃ ts, i = .edgeF ts) ∧ s.pend = true) ∨
      (t.count.toNat = 0 ∧ (i = .clear ∨ (i = .poll ∧ s.count.toNat = 40))) := by
  cases h with
  | closingFall ts hpend => exact .inl ⟨⟨ts, rfl⟩, hpend⟩
  | clear => exact .inr ⟨rfl, .inl rfl⟩
  | decode hready => exact .inr ⟨rfl, .inr ⟨rfl, hready⟩⟩
  | _ => exact absurd rfl hne

/-- Column "written by", the result group: it is written as a whole. -/
theorem Effect.result_writers {i : Instr} {s t : State} (h : Effect i s t) :
    (i = .poll ∧ s.count.toNat = 40 ∧ t.rvalid = true) ∨ (t.rvalid = s.rvalid ∧ t.result = s.result) := by
  cases h with
  | closingFall ts hpend => exact .inr ⟨closePulse_rvalid ts s, closePulse_result ts s⟩
  | decode hready => exact .inl ⟨rfl, hready, rfl⟩
  | _ => exact .inr ⟨rfl, rfl⟩

/-- Settles O37, a lemma per column. -/
theorem eachRegisterHasItsWriters : Obligations.EachRegisterHasItsWriters := by
  intro i s
  obtain ⟨t, hexec, heffect⟩ := exec_cases i s
  refine ⟨t, hexec, heffect.pend_writers, heffect.prise_writers, heffect.dur_writers, heffect.count_writers,
    fun hne => ?_, fun hne => ?_, heffect.port_eq, heffect.cfg_eq⟩
  · exact heffect.result_writers.resolve_right fun ⟨hrvalid, _⟩ => hne hrvalid
  · obtain ⟨hpoll, hready, _⟩ := heffect.result_writers.resolve_right fun ⟨_, hresult⟩ => hne hresult
    exact ⟨hpoll, hready⟩

/-! ### Reset at a step boundary (R211) -/

theorem abstract_applyReset (s : State) : (applyReset s).abstract = AbsState.initial := rfl

theorem Effect.rvalid_lasts {i : Instr} {s t : State} (h : Effect i s t) (hrvalid : s.rvalid = true) :
    t.rvalid = true := by
  obtain ⟨_, _, hset⟩ | ⟨hkept, _⟩ := h.result_writers
  · exact hset
  · exact hkept.trans hrvalid

/-- Settles O41: of the three kinds of step, an idle one keeps both registers, a command keeps `RVALID = 1` and but for
`CLEAR` also `COUNT = 41`, so what is left is the reset. -/
theorem resetAtAnyStepDiscardsEverything : Obligations.ResetAtAnyStepDiscardsEverything := by
  refine fun s => ⟨fun rest hport => ?_, fun t hstep hrvalid hdropped => ?_, fun t hstep hover hleft => ?_⟩
  · exact ⟨_, step_of_reset hport, abstract_applyReset _, rfl, rfl, rfl, rfl, rfl⟩
  · obtain ⟨_, hidle⟩ | ⟨w, rest, _, hcommand⟩ | ⟨rest, hport, _⟩ := step_cases s
    · cases hidle.symm.trans hstep
      exact absurd (hrvalid.symm.trans hdropped) Bool.noConfusion
    · have hlasts := (effect_of_exec (hcommand.symm.trans hstep)).rvalid_lasts hrvalid
      exact absurd (hlasts.symm.trans hdropped) Bool.noConfusion
    · exact ⟨rest, hport⟩
  · obtain ⟨_, hidle⟩ | ⟨w, rest, hport, hcommand⟩ | ⟨rest, hport, _⟩ := step_cases s
    · cases hidle.symm.trans hstep
      exact absurd hover hleft
    · refine ⟨rest, .inr ⟨w, hport, ?_⟩⟩
      by_contra hclear
      exact hleft ((effect_of_exec (hcommand.symm.trans hstep)).overCountLasts hover hclear).count
    · exact ⟨rest, .inl hport⟩

/-! ### The live sequence (R24, R53, R57 (a)) -/

theorem liveDurations_closePulse {ts : Tick} {s : State} (hwf : s.dur.wf = true) :
    liveDurations (closePulse ts s) =
      if s.count.toNat < 40 then liveDurations s ++ [pulseLength ts s.prise] else liveDurations s := by
  have happend : liveDurations (closePulse ts s) = liveDurations (appendDuration (pulseLength ts s.prise) s) := rfl
  rw [happend]
  split
  · next hroom => exact liveDurations_appendDuration_of_room hwf hroom
  · next hfull => exact liveDurations_appendDuration_of_full (Nat.le_of_not_lt hfull)

@[simp] theorem liveDurations_respond (r : Response) (s : State) : liveDurations (respond r s) = liveDurations s := rfl

@[simp] theorem liveDurations_clearLive (s : State) : liveDurations (clearLive s) = [] := rfl

/-- Settles O15: only a closing fall appends, and only the shared clear empties. -/
theorem liveSequenceIsAppendOnlyUntilCleared : Obligations.LiveSequenceIsAppendOnlyUntilCleared := by
  intro s hwf
  refine ⟨fun ts => ?_, fun ts => ⟨_, exec_edgeR ts s, rfl⟩, ⟨_, exec_nop s, rfl⟩, ⟨_, exec_clear s, rfl⟩, ?_⟩
  · cases hpend : s.pend with
    | false => exact ⟨_, exec_edgeF_of_not_pend hpend, (if_neg fun h => Bool.false_ne_true h.1).symm⟩
    | true =>
      refine ⟨_, exec_edgeF_of_pend hpend, ?_⟩
      simp only [liveDurations_respond, liveDurations_closePulse hwf, true_and]
  · by_cases hready : s.count.toNat = 40
    · exact ⟨_, exec_poll_of_ready hready, (if_pos hready).symm⟩
    · exact ⟨_, exec_poll_of_not_ready hready, (if_neg hready).symm⟩

/-- A pending rise is still there after `CLEAR`, unless `CLR_PEND` drops it, and the buffer is then empty. -/
theorem runCommands_clear_fall {fall : Tick} {s : State} (hwf : s.dur.wf = true) (hpend : s.pend = true) :
    ∃ t, runCommands [.clear, .edgeF fall] s = some t ∧
      (s.cfg.clrPend = false → liveDurations t = [pulseLength fall s.prise] ∧ t.count.toNat = 1) ∧
      (s.cfg.clrPend = true → liveDurations t = [] ∧ t.count.toNat = 0) := by
  rw [runCommands_cons (exec_clear s)]
  cases hcfg : s.cfg.clrPend with
  | false =>
    have hkept : (respond .nothing (clearLive s)).pend = true := (clearLive_pend_of_not_clrPend hcfg).trans hpend
    refine ⟨_, runCommands_cons (exec_edgeF_of_pend hkept), fun _ => ⟨?_, ?_⟩, nofun⟩
    · rw [liveDurations_respond, liveDurations_closePulse (s := respond .nothing (clearLive s)) hwf]
      rfl
    · rw [respond_count, closePulse_count]
      rfl
  | true =>
    have hdropped : (respond .nothing (clearLive s)).pend = false := clearLive_pend_of_clrPend hcfg
    exact ⟨_, runCommands_cons (exec_edgeF_of_not_pend hdropped), nofun, fun _ => ⟨rfl, rfl⟩⟩

/-- Settles O42: the rise makes the state one `runCommands_clear_fall` speaks of. -/
theorem pendingRiseAcrossAClear : Obligations.PendingRiseAcrossAClear := by
  intro rise fall s hwf
  rw [runCommands_cons (exec_edgeR rise s)]
  exact runCommands_clear_fall (s := respond .nothing (setPendingRise rise s)) hwf rfl

/-- Settles O43: `runCommands_pulses` from the cleared state, where nothing is held yet. -/
theorem pulsesFillTheSlotsInOrder : Obligations.PulsesFillTheSlotsInOrder := by
  intro ps s hwf
  obtain ⟨t, hrun, _, hcount, hlive⟩ :=
    runCommands_pulses ps (s := respond .nothing (clearLive s)) hwf (Nat.zero_le 41)
  refine ⟨t, (runCommands_cons (exec_clear s)).trans hrun, ?_, ?_⟩
  · rw [hlive, liveDurations_respond, liveDurations_clearLive, List.nil_append]
  · rw [hcount]
    exact congrArg (min · 41) (Nat.zero_add ps.length)

/-! ### The order of the two agents at the last edge (R185, P5) -/

theorem closePulse_respond (ts : Tick) (r : Response) (s : State) :
    closePulse ts (respond r s) = respond r (closePulse ts s) := by
  unfold closePulse appendDuration
  rw [respond_count]
  split <;> rfl

/-- A decode does not see the response of the command before it. -/
theorem decodePoll_respond (r : Response) (s : State) : decodePoll (respond r s) = decodePoll s := rfl

theorem decodeResponse_eq_ok_or_csumErr (r : ResultRegs) : decodeResponse r = .ok ∨ decodeResponse r = .csumErr := by
  cases hv : r.valid with
  | false => exact .inr (decodeResponse_eq_csumErr_iff.mpr hv)
  | true => exact .inl (decodeResponse_eq_ok_iff.mpr hv)

theorem closePulse_count_toNat_of_39 {ts : Tick} {s : State} (hcount : s.count.toNat = 39) :
    (closePulse ts s).count.toNat = 40 := by
  rw [closePulse_count, countPulse_toNat, hcount]
  rfl

/-- `POLL` before the 40th fall only answers; the one after it decodes. -/
theorem runCommands_poll_fall_poll {ts : Tick} {s : State} (hpend : s.pend = true) (hcount : s.count.toNat = 39) :
    runCommands [.poll, .edgeF ts, .poll] s = some (decodePoll (closePulse ts s)) := by
  have hready : (respond .nothing (closePulse ts (respond .notReady s))).count.toNat = 40 := by
    rw [closePulse_respond]
    exact closePulse_count_toNat_of_39 hcount
  rw [runCommands_cons (exec_poll_of_not_ready (by omega)),
    runCommands_cons (exec_edgeF_of_pend (s := respond .notReady s) hpend),
    runCommands_cons (exec_poll_of_ready hready), closePulse_respond, decodePoll_respond, decodePoll_respond]
  rfl

/-- The second `POLL` after the 40th fall comes to an empty sequence. -/
theorem runCommands_fall_poll_poll {ts : Tick} {s : State} (hpend : s.pend = true) (hcount : s.count.toNat = 39) :
    runCommands [.edgeF ts, .poll, .poll] s = some (respond .notReady (decodePoll (closePulse ts s))) := by
  have hready : (respond .nothing (closePulse ts s)).count.toNat = 40 := closePulse_count_toNat_of_39 hcount
  have hempty : (decodePoll (respond .nothing (closePulse ts s))).count.toNat ≠ 40 := by
    rw [decodePoll_count]
    decide
  rw [runCommands_cons (exec_edgeF_of_pend hpend), runCommands_cons (exec_poll_of_ready hready),
    runCommands_cons (exec_poll_of_not_ready hempty), decodePoll_respond]
  rfl

/-- A pulse that finds 40 durations makes a later `POLL` not ready. -/
theorem runCommands_late_pulse_poll (rise fall : Tick) {s : State} (hready : s.count.toNat = 40) :
    ∃ t, runCommands [.edgeR rise, .edgeF fall, .poll] s = some t ∧ t.rsp = some .notReady ∧ t.count.toNat = 41 ∧
      t.rvalid = s.rvalid ∧ t.result = s.result := by
  have hover : (countPulse s.count).toNat = 41 := by
    rw [countPulse_toNat, if_neg (by omega)]
  rw [runCommands_cons (exec_edgeR rise s),
    runCommands_cons (exec_edgeF_of_pend (s := respond .nothing (setPendingRise rise s)) rfl),
    runCommands_cons (exec_poll_of_not_ready (by simp [hover]))]
  exact ⟨_, rfl, rfl, by simp [hover], by simp, by simp⟩

/-- Settles O44: the two orders end in `decodePoll (closePulse ts s)` but for the response, and a 41st pulse makes a
`POLL` not ready. -/
theorem pollOnEitherSideOfTheLastFall : Obligations.PollOnEitherSideOfTheLastFall := by
  intro ts rise fall s _ hpend hcount
  refine ⟨⟨_, _, runCommands_poll_fall_poll hpend hcount, runCommands_fall_poll_poll hpend hcount, rfl, nofun, ?_, rfl⟩,
    ?_⟩
  · rw [decodePoll_rsp, Option.some_inj, Option.some_inj]
    exact decodeResponse_eq_ok_or_csumErr _
  · obtain ⟨t, hrun, hrsp, hover, hrvalid, hresult⟩ := runCommands_late_pulse_poll rise fall
      (s := respond .nothing (closePulse ts s)) (closePulse_count_toNat_of_39 hcount)
    exact ⟨t, (runCommands_cons (exec_edgeF_of_pend hpend)).trans hrun, hrsp, hover,
      hrvalid.trans (closePulse_rvalid ts s), hresult.trans (closePulse_result ts s)⟩

/-! ### Every interleaving (R185, R58) -/

/-- Where a merge stands when the edge agent still has `e` to send, of a frame of the given widths: between two pulses,
inside one, or after the decode. -/
inductive FrameProgress (widths : Vector Tick 40) : List Instr → State → Prop where
  | between {e : List Instr} {s : State} (ps : List (Tick × Tick)) (he : e = pulses ps) (hwf : s.dur.wf = true)
      (hcount : s.count.toNat + ps.length = 40) (hlive : liveDurations s ++ ps.map Prod.snd = widths.toList) :
      FrameProgress widths e s
  | inPulse {s : State} (w : Tick) (ps : List (Tick × Tick)) (hpend : s.pend = true) (hwf : s.dur.wf = true)
      (hcount : s.count.toNat + ps.length = 39) (hlive : liveDurations s ++ w :: ps.map Prod.snd = widths.toList) :
      FrameProgress widths (.edgeF (s.prise + w) :: pulses ps) s
  | decoded {s : State} (hrvalid : s.rvalid = true) (hcount : s.count.toNat = 0) (hresult : DecodesTo widths s.result) :
      FrameProgress widths [] s

theorem pulseLength_add_left (t w : Tick) : pulseLength (t + w) t = w := by
  rw [pulseLength, BitVec.add_comm, BitVec.add_sub_cancel]

theorem pulses_cons (p : Tick × Tick) (ps : List (Tick × Tick)) :
    pulses (p :: ps) = .edgeR p.1 :: .edgeF (p.1 + p.2) :: pulses ps := rfl

/-- The next edge opens a pulse or closes the open one. -/
theorem FrameProgress.edge {widths : Vector Tick 40} {x : Instr} {e : List Instr} {s t : State}
    (h : FrameProgress widths (x :: e) s) (heffect : Effect x s t) : FrameProgress widths e t := by
  cases h with
  | between ps he hwf hcount hlive =>
    cases ps with
    | nil => cases he
    | cons p ps =>
      rw [pulses_cons] at he
      cases he
      cases heffect
      exact .inPulse (s := respond .nothing (setPendingRise p.1 s)) p.2 ps rfl hwf (Nat.succ.inj hcount) hlive
  | inPulse w ps hpend hwf hcount hlive =>
    have hroom : s.count.toNat < 40 := by omega
    rw [heffect.eq_closePulse_of_pend hpend]
    refine .between ps rfl (appendDuration_dur_wf hwf) ?_ ?_
    · rw [respond_count, closePulse_count, countPulse_toNat, if_pos hroom]
      omega
    · rw [liveDurations_respond, liveDurations_closePulse hwf, if_pos hroom, pulseLength_add_left, List.append_assoc]
      exact hlive

/-- The live sequence is the frame once its last pulse is closed. -/
theorem decodesTo_decodePoll {widths : Vector Tick 40} {s : State} (hlive : liveDurations s = widths.toList) :
    DecodesTo widths (decodePoll s).result := by
  rw [decodePoll_result, snapshot_of_liveDurations_eq hlive]
  exact decodesTo_decodeFrame widths

theorem FrameProgress.respond {widths : Vector Tick 40} {e : List Instr} {s : State} (h : FrameProgress widths e s)
    (r : Response) : FrameProgress widths e (respond r s) := by
  cases h with
  | between ps he hwf hcount hlive => exact .between ps he hwf hcount hlive
  | inPulse w ps hpend hwf hcount hlive =>
    exact .inPulse (s := Machine.respond r s) w ps hpend hwf hcount hlive
  | decoded hrvalid hcount hresult => exact .decoded hrvalid hcount hresult

/-- At `COUNT = 40` the frame is complete and not yet decoded. -/
theorem FrameProgress.complete_of_ready {widths : Vector Tick 40} {e : List Instr} {s : State}
    (h : FrameProgress widths e s) (hready : s.count.toNat = 40) : e = [] ∧ liveDurations s = widths.toList := by
  cases h with
  | between ps he hwf hcount hlive =>
    obtain rfl : ps = [] := List.length_eq_zero_iff.mp (by omega)
    exact ⟨he, (List.append_nil _).symm.trans hlive⟩
  | inPulse w ps hpend hwf hcount hlive => omega
  | decoded hrvalid hcount hresult => omega

/-- A `NOP` or a `POLL` of the poll agent loses nothing, wherever it falls. -/
theorem FrameProgress.poll {widths : Vector Tick 40} {i : Instr} {e : List Instr} {s t : State}
    (h : FrameProgress widths e s) (hi : i = .nop ∨ i = .poll) (heffect : Effect i s t) : FrameProgress widths e t := by
  obtain rfl | rfl := hi
  · cases heffect
    exact h.respond _
  · cases heffect with
    | decode hready =>
      obtain ⟨rfl, hlive⟩ := h.complete_of_ready hready
      exact .decoded rfl rfl (decodesTo_decodePoll hlive)
    | notReady hcount => exact h.respond _

/-- Induction over the merge: whichever agent is next, the frame makes progress. -/
theorem FrameProgress.runCommands {widths : Vector Tick 40} {e p m : List Instr} (hmerge : Interleaves e p m)
    (hp : ∀ i ∈ p, i = .nop ∨ i = .poll) {s : State} (h : FrameProgress widths e s) :
    ∃ t, runCommands m s = some t ∧ FrameProgress widths [] t := by
  induction hmerge generalizing s with
  | nil => exact ⟨s, rfl, h⟩
  | @left x e p m _ ih =>
    obtain ⟨t, hexec, heffect⟩ := exec_cases x s
    rw [runCommands_cons hexec]
    exact ih hp (h.edge heffect)
  | @right x e p m _ ih =>
    obtain ⟨t, hexec, heffect⟩ := exec_cases x s
    rw [runCommands_cons hexec]
    exact ih (fun i hi => hp i (List.mem_cons_of_mem x hi)) (h.poll (hp x List.mem_cons_self) heffect)

/-- With all edges sent, a last `POLL` leaves the decoded frame, whether or not an earlier one has decoded it. -/
theorem FrameProgress.last_poll {widths : Vector Tick 40} {s t : State} (h : FrameProgress widths [] s)
    (heffect : Effect .poll s t) : t.rvalid = true ∧ t.count.toNat = 0 ∧ DecodesTo widths t.result := by
  cases heffect with
  | decode hready =>
    obtain ⟨_, hlive⟩ := h.complete_of_ready hready
    exact ⟨rfl, rfl, decodesTo_decodePoll hlive⟩
  | notReady hnot =>
    cases h with
    | between ps he hwf hcount hlive =>
      cases ps with
      | nil => exact absurd hcount hnot
      | cons p ps => cases he
    | decoded hrvalid hcount hresult => exact ⟨hrvalid, hcount, hresult⟩

/-- Settles O45: after `CLEAR` the frame stands before its first pulse; every merge carries it to its end. -/
theorem everyInterleavingDecodesTheFrame : Obligations.EveryInterleavingDecodesTheFrame := by
  intro ps polls merged s hwf hpolls hmerge
  have hstart : FrameProgress (ps.map Prod.snd) (pulses ps.toList) (respond .nothing (clearLive s)) := by
    refine .between ps.toList rfl hwf ?_ ?_
    · rw [Vector.length_toList]
      rfl
    · rw [liveDurations_respond, liveDurations_clearLive, List.nil_append, Vector.toList_map]
  obtain ⟨t, hrun, hend⟩ := hstart.runCommands hmerge hpolls
  obtain ⟨u, _, heffect⟩ := exec_cases .poll t
  exact ⟨u, runCommands_concat ((runCommands_cons (exec_clear s)).trans hrun) heffect, hend.last_poll heffect⟩

/-! ### The decode as a function of the durations (R163) -/

/-- Settles O32: result and response are those of `decodeFrame` of the snapshot. -/
theorem decodeDependsOnlyOnTheDurations : Obligations.DecodeDependsOnlyOnTheDurations := by
  intro s s' hready hready' hread
  refine ⟨_, _, exec_poll_of_ready hready, exec_poll_of_ready hready', ?_, ?_⟩
  · rw [decodePoll_result, decodePoll_result, snapshot_congr hread]
  · rw [decodePoll_rsp, decodePoll_rsp, snapshot_congr hread]

/-! ### The classifier (R114) -/

theorem classify_bit_eq_false_iff {w : Nat} (d : Vector (BitVec w) 40) (k : Fin 40) :
    (classify d).2.2[k] = false ↔ 2 * d[k].toNat ≤ (classify d).1.toNat + (classify d).2.1.toNat := by
  rw [← Bool.not_eq_true, classify_bit_iff, Nat.not_lt]

theorem classify_dmin_le_dmax {w : Nat} (d : Vector (BitVec w) 40) :
    (classify d).1.toNat ≤ (classify d).2.1.toNat :=
  (classify_dmin_le d 0).trans (le_classify_dmax d 0)

theorem classify_bit_of_dmin {w : Nat} {d : Vector (BitVec w) 40} {k : Fin 40} (hk : d[k] = (classify d).1) :
    (classify d).2.2[k] = false := by
  have hle := classify_dmin_le_dmax d
  rw [classify_bit_eq_false_iff, hk]
  omega

theorem classify_bit_of_dmax {w : Nat} {d : Vector (BitVec w) 40} {k : Fin 40}
    (hne : (classify d).1 ≠ (classify d).2.1) (hk : d[k] = (classify d).2.1) : (classify d).2.2[k] = true := by
  have hle := classify_dmin_le_dmax d
  have hne' : (classify d).1.toNat ≠ (classify d).2.1.toNat := mt BitVec.eq_of_toNat_eq hne
  rw [classify_bit_iff, hk]
  omega

theorem getElem_eq_dmin_of_dmin_eq_dmax {w : Nat} {d : Vector (BitVec w) 40} (h : (classify d).1 = (classify d).2.1)
    (k : Fin 40) : d[k] = (classify d).1 := by
  have hmin : (classify d).1.toNat ≤ d[k].toNat := classify_dmin_le d k
  have hmax : d[k].toNat ≤ (classify d).2.1.toNat := le_classify_dmax d k
  rw [← h] at hmax
  exact BitVec.eq_of_toNat_eq (hmax.antisymm hmin)

/-- Settles O20: the shortest is at most the midpoint, the longest is above it unless both are the same, and the
threshold is the same for all bits. -/
theorem classifierSplitsAtTheExtremes : Obligations.ClassifierSplitsAtTheExtremes := by
  intro w d
  refine ⟨fun k => classify_bit_of_dmin, fun k => classify_bit_of_dmax, fun i j hij hi => ?_, ?_, fun hzero i j => ?_⟩
  · rw [classify_bit_iff] at hi ⊢
    omega
  · obtain ⟨k, hk⟩ := classify_dmin_mem d
    exact ⟨k, classify_bit_of_dmin hk⟩
  · obtain ⟨m, hm⟩ := classify_dmax_mem d
    have hsame : (classify d).1 = (classify d).2.1 := by
      by_contra hne
      exact absurd ((hzero m).symm.trans (classify_bit_of_dmax hne hm)) Bool.false_ne_true
    rw [getElem_eq_dmin_of_dmin_eq_dmax hsame i, getElem_eq_dmin_of_dmin_eq_dmax hsame j]

/-- The shortest of the scaled durations is the scaled shortest. -/
theorem classify_dmin_scaled {w scale offset : Nat} {d d' : Vector (BitVec w) 40}
    (h : ∀ k : Fin 40, d'[k].toNat = scale * d[k].toNat + offset) :
    (classify d').1.toNat = scale * (classify d).1.toNat + offset := by
  obtain ⟨k, hk⟩ := classify_dmin_mem d
  obtain ⟨k', hk'⟩ := classify_dmin_mem d'
  apply Nat.le_antisymm
  · rw [← hk, ← h k]
    exact classify_dmin_le d' k
  · rw [← hk', h k']
    exact Nat.add_le_add_right (Nat.mul_le_mul_left scale (classify_dmin_le d k')) offset

theorem classify_dmax_scaled {w scale offset : Nat} {d d' : Vector (BitVec w) 40}
    (h : ∀ k : Fin 40, d'[k].toNat = scale * d[k].toNat + offset) :
    (classify d').2.1.toNat = scale * (classify d).2.1.toNat + offset := by
  obtain ⟨k, hk⟩ := classify_dmax_mem d
  obtain ⟨k', hk'⟩ := classify_dmax_mem d'
  apply Nat.le_antisymm
  · rw [← hk', h k']
    exact Nat.add_le_add_right (Nat.mul_le_mul_left scale (le_classify_dmax d k')) offset
  · rw [← hk, ← h k]
    exact le_classify_dmax d' k

/-- Both sides of the comparison grow by the same factor and by twice the offset. -/
theorem scaled_lt_iff {scale : Nat} (hscale : 0 < scale) (offset a b x : Nat) :
    (scale * a + offset) + (scale * b + offset) < 2 * (scale * x + offset) ↔ a + b < 2 * x := by
  rw [← Nat.mul_lt_mul_left (b := a + b) (c := 2 * x) hscale, Nat.mul_add scale a, Nat.mul_left_comm scale 2]
  omega

/-- Settles O21: the extremes scale with the durations, and `scaled_lt_iff` compares as before. -/
theorem classifierIgnoresScaleAndOffset : Obligations.ClassifierIgnoresScaleAndOffset := by
  intro w d d' scale offset hscale h
  have hbits : ∀ k : Fin 40, (classify d').2.2[k] = (classify d).2.2[k] := fun k => by
    rw [classify_bit, classify_bit, classify_dmin_scaled h, classify_dmax_scaled h, h k, decide_eq_decide]
    exact scaled_lt_iff hscale offset _ _ _
  exact Vector.ext fun k hk => hbits ⟨k, hk⟩

/-! ### The shift register and the frame word (R29, R126) -/

/-- Settles O23: all eight bits of the byte are bits of the group. -/
theorem shiftRegisterStartDoesNotMatter : Obligations.ShiftRegisterStartDoesNotMatter := by
  intro start group hlen
  apply BitVec.eq_of_getLsbD_eq
  intro i hi
  rw [packByte, foldl_shiftIn_getLsbD _ _ hi, foldl_shiftIn_getLsbD _ _ hi, dif_pos (by omega), dif_pos (by omega)]

/-- Reading bits as a number, most significant first: bit `i` is the one read `i` before the last. -/
theorem foldl_double_testBit (bits : List Bool) {i : Nat} (hi : i < bits.length) :
    (bits.foldl (fun n (b : Bool) => 2 * n + b.toNat) 0).testBit i = bits.reverse[i]'(by simpa using hi) := by
  induction bits using List.reverseRecOn generalizing i with
  | nil => exact absurd hi (Nat.not_lt_zero i)
  | append_singleton bits bit ih =>
    rw [List.foldl_concat, ← Nat.bit_val]
    cases i with
    | zero => simp
    | succ i =>
      rw [List.length_append, List.length_singleton] at hi
      simp [Nat.testBit_bit_succ, ih (Nat.lt_of_succ_lt_succ hi)]

theorem frame40_getLsbD (bits : Vector Bool 40) {i : Nat} (hi : i < 40) :
    (frame40 bits).getLsbD i = bits[39 - i] := by
  have hlen : i < bits.toList.length := by simpa using hi
  rw [frame40, BitVec.getLsbD_ofNat, foldl_double_testBit _ hlen, List.getElem_reverse]
  simp [hi]

/-- Bit `i` of five bytes put together is bit `i mod 8` of byte `4 - i div 8`. -/
theorem concat_getLsbD (bytes : Vector Byte 5) {i : Nat} (hi : i < 40) :
    (bytes[0] ++ bytes[1] ++ bytes[2] ++ bytes[3] ++ bytes[4]).getLsbD i = bytes[4 - i / 8].getLsbD (i % 8) := by
  simp only [BitVec.getLsbD_append]
  split_ifs <;> congr 2 <;> omega

/-- Settles O24: `frame40_getLsbD` is the first part, and for the second both sides have the same 40 bits. -/
theorem frameWordIsTheFiveBytes : Obligations.FrameWordIsTheFiveBytes := by
  refine fun bits => ⟨fun k => ?_, ?_⟩
  · rw [frame40_getLsbD bits (by omega), Fin.getElem_fin]
    congr 1
    omega
  · apply BitVec.eq_of_getLsbD_eq
    intro i hi
    rw [frame40_getLsbD bits hi, concat_getLsbD (pack bits) hi, pack_getLsbD bits (by omega) (by omega)]
    congr 1
    omega

/-- Settles O47, by the two round trips of the stages. -/
theorem frameWidthsClassifyBackToTheirBits : Obligations.FrameWidthsClassifyBackToTheirBits := fun _ _ b =>
  ⟨pack_frameBits b, classify_frameWidths⟩

/-! ### The buffer (R51) -/

theorem Memory.wfFrom_cons_iff {lo a : Nat} {v : Tick} {m : Memory} :
    Memory.wfFrom lo ((a, v) :: m) = true ↔
      lo ≤ a ∧ a < 40 ∧ v ≠ Memory.unlisted ∧ Memory.wfFrom (a + 1) m = true := by
  simp [Memory.wfFrom, and_assoc]

theorem Memory.read_of_ge {lo k : Nat} {m : Memory} (h : Memory.wfFrom lo m = true) (hk : 40 ≤ k) :
    Memory.read m k = Memory.unlisted := by
  induction m generalizing lo with
  | nil => rfl
  | cons e m ih =>
    obtain ⟨a, v⟩ := e
    obtain ⟨_, ha, _, htail⟩ := Memory.wfFrom_cons_iff.mp h
    rw [Memory.read, if_neg (by omega)]
    exact ih htail

theorem Memory.read_head (a : Nat) (v : Tick) (m : Memory) : Memory.read ((a, v) :: m) a = v :=
  if_pos rfl

/-- A buffer that reads a listed value at `a` lists nothing above `a` first. -/
theorem Memory.le_of_read_ne {lo a b : Nat} {v : Tick} {m : Memory} (h : Memory.wfFrom lo ((b, v) :: m) = true)
    (hread : Memory.read ((b, v) :: m) a ≠ Memory.unlisted) : b ≤ a := by
  obtain ⟨_, hb, hv, htail⟩ := Memory.wfFrom_cons_iff.mp h
  by_contra hlt
  exact hread (Memory.read_below (lo := b) (Memory.wfFrom_cons_iff.mpr ⟨le_rfl, hb, hv, htail⟩) (by omega))

/-- Two canonical tails that read alike everywhere list the same entries. -/
theorem Memory.eq_of_read_eq_from {lo : Nat} {m n : Memory} (hm : Memory.wfFrom lo m = true)
    (hn : Memory.wfFrom lo n = true) (h : ∀ k, Memory.read m k = Memory.read n k) : m = n := by
  induction m generalizing lo n with
  | nil =>
    cases n with
    | nil => rfl
    | cons e n =>
      obtain ⟨b, v⟩ := e
      obtain ⟨_, _, hv, _⟩ := Memory.wfFrom_cons_iff.mp hn
      exact absurd ((h b).trans (Memory.read_head b v n)).symm hv
  | cons e m ih =>
    obtain ⟨a, u⟩ := e
    obtain ⟨_, _, hu, hmtail⟩ := Memory.wfFrom_cons_iff.mp hm
    have hna : Memory.read n a = u := (h a).symm.trans (Memory.read_head a u m)
    cases n with
    | nil => exact absurd hna.symm hu
    | cons e n =>
      obtain ⟨b, v⟩ := e
      obtain ⟨_, _, hv, hntail⟩ := Memory.wfFrom_cons_iff.mp hn
      have hmb : Memory.read ((a, u) :: m) b = v := (h b).trans (Memory.read_head b v n)
      obtain rfl : a = b :=
        (Memory.le_of_read_ne hm (hmb.symm ▸ hv)).antisymm (Memory.le_of_read_ne hn (hna.symm ▸ hu))
      obtain rfl : v = u := (Memory.read_head a v n).symm.trans hna
      have htails : ∀ k, Memory.read m k = Memory.read n k := fun k => by
        rcases eq_or_ne a k with rfl | hk
        · rw [Memory.read_below hmtail (Nat.lt_succ_self a), Memory.read_below hntail (Nat.lt_succ_self a)]
        · have hread := h k
          rwa [Memory.read, Memory.read, if_neg hk, if_neg hk] at hread
      rw [ih hmtail hntail htails]

/-- Settles O50: the laws of a write, and extensionality, for which entries from 40 on are all unlisted. -/
theorem bufferIsCanonical : Obligations.BufferIsCanonical := by
  refine ⟨fun m k v hm hk => ⟨Memory.wf_write hm hk, fun j => ?_⟩, fun m n hm hn h => ?_⟩
  · split
    · next hj => rw [hj, Memory.read_write_self hm]
    · next hj => exact Memory.read_write_of_ne hm hj
  · refine Memory.eq_of_read_eq_from hm hn fun k => ?_
    rcases Nat.lt_or_ge k 40 with hlt | hge
    · exact h k hlt
    · rw [Memory.read_of_ge hm hge, Memory.read_of_ge hn hge]

/-! ### `READING` (R78) -/

theorem readingHigh_toNat (s : State) : (readingHigh s).toNat = s.rvalid.toNat := by
  rw [readingHigh, toNat_append_eq_mul_add, BitVec.toNat_ofBool]
  exact Nat.zero_add _

theorem reading_of_rvalid {s : State} (h : s.rvalid = true) :
    reading s = some (readingHigh s ++ (BitVec.ofBool s.result.valid ++ s.result.tempX10 ++ s.result.humX10)) := by
  rw [reading, readingLow, resultOutputs_of_rvalid h]
  rfl

/-- Settles O35: the fields of the word do not overlap, and without a result there are no low fields. -/
theorem readingPacksTheResult : Obligations.ReadingPacksTheResult := by
  refine fun s => ⟨fun h => ⟨_, reading_of_rvalid h, ?_⟩, fun h => ?_, readingHigh_toNat s⟩
  · simp only [toNat_append_eq_mul_add, readingHigh_toNat, h, BitVec.toNat_ofBool, Bool.toNat_true]
    omega
  · have hlow : readingLow s = none := by
      rw [readingLow, resultOutputs_of_not_rvalid h]
      rfl
    exact ⟨by rw [reading, hlow]; rfl, hlow⟩

/-! ### The host (R181, R191 to R196, R212) -/

theorem advance_answered (h : HostTimes) (last : Option Nat) (r : Response) :
    (advance h ⟨.running, .collecting, last⟩ (.answered r)).1.phase = if r.decoded then .complete else .collecting :=
  rfl

/-- Settles O53: `POLL` answers `NOT_READY` at any count but 40, where the answer tells of a decode. -/
theorem sequencerCompletesExactlyOnADecode : Obligations.SequencerCompletesExactlyOnADecode := by
  refine fun h last s => ⟨rfl, ?_⟩
  by_cases hready : s.count.toNat = 40
  · refine ⟨_, _, exec_poll_of_ready hready, decodePoll_rsp s, iff_of_true ?_ hready, fun _ => ⟨rfl, rfl⟩⟩
    rw [advance_answered, decodeResponse_decoded, if_pos rfl]
  · exact ⟨_, _, exec_poll_of_not_ready hready, rfl, iff_of_false Phase.noConfusion hready,
      fun hcomplete => Phase.noConfusion hcomplete⟩

/-- Only a booted host does anything but boot, and boot sends no command. -/
theorem running_of_send_mem_advance {h : HostTimes} {s : HostState} {e : HostEvent} {i : Instr}
    (hsend : .send i ∈ (advance h s e).2) : s.session = .running := by
  cases hs : s.session with
  | running => rfl
  | aborted => simp [advance, hs] at hsend
  | off =>
    cases e with
    | boot connected => cases connected <;> simp [advance, hs, bootActions] at hsend
    | _ => simp [advance, hs] at hsend

theorem inputsOf_bootActions (connected : Bool) : inputsOf (bootActions connected) = [.reset] := by
  cases connected <;> rfl

/-- A start, in the two phases that have a transition for it. -/
theorem advance_start {h : HostTimes} {now : Nat} {last : Option Nat} {p : Phase} (hp : p = .idle ∨ p = .collecting) :
    advance h ⟨.running, p, last⟩ (.start now) = startCycle h now ⟨.running, p, last⟩ := by
  obtain rfl | rfl := hp <;> rfl

theorem runHost_failed_boot (h : HostTimes) (es : List HostEvent) :
    (runHost h HostState.initial (.boot false :: es)).2 = bootActions false := by
  have hrest : runHost h ⟨.aborted, .idle, none⟩ es = (⟨.aborted, .idle, none⟩, []) := runHost_of_aborted rfl es
  calc (runHost h HostState.initial (.boot false :: es)).2
      = bootActions false ++ (runHost h ⟨.aborted, .idle, none⟩ es).2 := rfl
    _ = bootActions false := by rw [hrest, List.append_nil]

/-- Settles O54, clause by clause of R212. -/
theorem hostFollowsTheBootOrder : Obligations.HostFollowsTheBootOrder := by
  refine fun h => ⟨fun es => rfl, fun es => ?_, fun s e i => running_of_send_mem_advance,
    fun connected s rest hport => ?_, fun now last p hp => ⟨fun hkept => ?_, fun t hlast hearly => ?_⟩,
    fun p last level ts => ?_⟩
  · rw [runHost_failed_boot, inputsOf_bootActions]
  · rw [inputsOf_bootActions] at hport
    exact ⟨_, step_of_reset hport, abstract_applyReset _, rfl⟩
  · rw [advance_start hp, startCycle, if_pos (cadenceKept_iff.mpr hkept)]
  · rw [advance_start hp, startCycle, if_neg]
    intro hkept
    have hle := cadenceKept_iff.mp hkept t hlast
    omega
  · cases level <;> cases p <;> rfl

/-! ### A command as a line of text (R79) -/

theorem not_isWhitespace_of_isDigit {c : Char} (h : c.isDigit = true) : c.isWhitespace = false := by
  by_contra hspace
  rw [Bool.not_eq_false, Char.isWhitespace] at hspace
  simp only [Bool.or_eq_true, decide_eq_true_eq] at hspace
  obtain ((rfl | rfl) | rfl) | rfl := hspace <;> exact absurd h (by decide)

theorem ne_of_isDigit {c x : Char} (h : c.isDigit = true) (hx : x.isDigit = false) : c ≠ x := by
  rintro rfl
  exact absurd (h.symm.trans hx) Bool.noConfusion

/-- Text without white space at either end. -/
theorem trim_eq_self {cs : List Char} (hhead : ∀ c ∈ cs.head?, c.isWhitespace = false)
    (hlast : ∀ c ∈ cs.getLast?, c.isWhitespace = false) : trim cs = cs := by
  have hdrop : ∀ l : List Char, (∀ c ∈ l.head?, c.isWhitespace = false) → l.dropWhile Char.isWhitespace = l := by
    intro l hl
    cases l with
    | nil => rfl
    | cons c l => exact List.dropWhile_cons_of_neg (by simp [hl c rfl])
  rw [trim, hdrop cs hhead, hdrop cs.reverse (by rwa [List.head?_reverse]), List.reverse_reverse]

theorem trim_space_cons (cs : List Char) : trim (' ' :: cs) = trim cs := by
  rw [trim, trim, List.dropWhile_cons_of_pos (by decide)]

theorem trim_digits {ds : List Char} (hds : ∀ c ∈ ds, c.isDigit = true) : trim ds = ds :=
  trim_eq_self (fun c hc => not_isWhitespace_of_isDigit (hds c (List.mem_of_mem_head? hc)))
    fun c hc => not_isWhitespace_of_isDigit (hds c (List.mem_of_mem_getLast? hc))

/-- Decimal digits are no hexadecimal number: those have an `x`. -/
theorem parseNumber_digits {ds : List Char} (hne : ds ≠ []) (hds : ∀ c ∈ ds, c.isDigit = true) :
    parseNumber ds = some (Nat.ofDigitChars 10 ds 0) := by
  unfold parseNumber
  split
  · exact absurd rfl hne
  · exact absurd (hds 'x' (by simp)) (by decide)
  · exact if_pos (List.all_eq_true.mpr hds)

theorem parseOperands_digits {ds : List Char} (hne : ds ≠ []) (hds : ∀ c ∈ ds, c.isDigit = true) :
    parseOperands (ds.splitOn ',') = some [Nat.ofDigitChars 10 ds 0] := by
  have hone : ds.splitOn ',' = [ds] := List.splitOn_eq_singleton fun h => ne_of_isDigit (hds ',' h) (by decide) rfl
  rw [hone, parseOperands, trim_digits hds, parseNumber_digits hne hds]
  rfl

/-- A mnemonic, a space and digits hold no comment. -/
theorem takeWhile_not_comment {m ds : List Char} (hm : ∀ c ∈ m, c ≠ ';') (hds : ∀ c ∈ ds, c.isDigit = true) :
    (m ++ ' ' :: ds).takeWhile (· != ';') = m ++ ' ' :: ds := by
  rw [List.takeWhile_eq_self_iff]
  intro c hc
  rw [List.mem_append, List.mem_cons] at hc
  rw [bne_iff_ne]
  obtain hc | rfl | hc := hc
  · exact hm c hc
  · decide
  · exact ne_of_isDigit (hds c hc) (by decide)

/-- Such a line begins with the mnemonic and ends with a digit. -/
theorem trim_mnemonic_digits {m ds : List Char} (hm : m ≠ []) (hmspace : ∀ c ∈ m, c.isWhitespace = false)
    (hne : ds ≠ []) (hds : ∀ c ∈ ds, c.isDigit = true) : trim (m ++ ' ' :: ds) = m ++ ' ' :: ds := by
  refine trim_eq_self (fun c hc => ?_) fun c hc => ?_
  · rw [List.head?_append_of_ne_nil m hm] at hc
    exact hmspace c (List.mem_of_mem_head? hc)
  · rw [← List.singleton_append, ← List.append_assoc, List.getLast?_append_of_ne_nil _ hne] at hc
    exact not_isWhitespace_of_isDigit (hds c (List.mem_of_mem_getLast? hc))

/-- A line of a mnemonic, a space and a decimal number is read as that mnemonic with that number. -/
theorem parseLine_mnemonic_digits {m ds : List Char} {l : SourceLine} (hm : m ≠ [])
    (hmchars : ∀ c ∈ m, c.isWhitespace = false ∧ c ≠ ';') (hne : ds ≠ []) (hds : ∀ c ∈ ds, c.isDigit = true)
    (hl : sourceLine m [Nat.ofDigitChars 10 ds 0] = some l) : parseLine (m ++ ' ' :: ds) = .ok [l] := by
  have hnocomment := takeWhile_not_comment (fun c hc => (hmchars c hc).2) hds
  have htrim := trim_mnemonic_digits hm (fun c hc => (hmchars c hc).1) hne hds
  have hword : ∀ c ∈ m, (!c.isWhitespace) = true := fun c hc => by rw [(hmchars c hc).1]; rfl
  have hmnemonic : (m ++ ' ' :: ds).takeWhile (fun c => !c.isWhitespace) = m := by
    rw [List.takeWhile_append_of_pos hword, List.takeWhile_cons_of_neg (by decide), List.append_nil]
  have hrest : trim ((m ++ ' ' :: ds).dropWhile (fun c => !c.isWhitespace)) = ds := by
    rw [List.dropWhile_append_of_pos hword, List.dropWhile_cons_of_neg (by decide), trim_space_cons, trim_digits hds]
  have htext : m ++ ' ' :: ds ≠ [] := List.append_ne_nil_of_left_ne_nil hm _
  simp only [parseLine, hnocomment, htrim, if_neg htext, hmnemonic, hrest, if_neg hne, parseOperands_digits hne hds,
    Option.bind_some, hl]

/-- One well-formed line is assembled to its expansion. -/
theorem assembleLine_of_parseLine {line : List Char} {l : SourceLine} (h : parseLine line = .ok [l])
    (hl : l.wellFormed = true) : assembleLine line = .ok (expand l) := by
  simp [assembleLine, h, hl]

theorem isTickNumber_toNat (ts : Tick) : isTickNumber ts.toNat = true :=
  decide_eq_true ts.isLt

theorem ofNat_toNat_tick (ts : Tick) : BitVec.ofNat 32 ts.toNat = ts := by
  rw [BitVec.ofNat_toNat, BitVec.setWidth_eq]

/-- The decimal form of a timestamp is at least one digit, and stands for the timestamp. -/
theorem assembleLine_mnemonic_tick {m : List Char} {l : SourceLine} (ts : Tick) (hm : m ≠ [])
    (hmchars : ∀ c ∈ m, c.isWhitespace = false ∧ c ≠ ';') (hl : sourceLine m [ts.toNat] = some l)
    (hwf : l.wellFormed = true) : assembleLine (m ++ ' ' :: Nat.toDigits 10 ts.toNat) = .ok (expand l) := by
  have hdigits : ∀ c ∈ Nat.toDigits 10 ts.toNat, c.isDigit = true := fun _ hc =>
    Nat.isDigit_of_mem_toDigits (by decide) (by decide) hc
  refine assembleLine_of_parseLine (parseLine_mnemonic_digits hm hmchars Nat.toDigits_ne_nil hdigits ?_) hwf
  rwa [Nat.ofDigitChars_ten_toDigits]

theorem sourceLine_edgeF (n : Nat) : sourceLine "EDGE.F".toList [n] = some (.edgeF n) := by
  rw [sourceLine, if_neg (by decide), if_neg (by decide), if_pos rfl]

theorem sourceLine_edgeR (n : Nat) : sourceLine "EDGE.R".toList [n] = some (.edgeR n) := by
  rw [sourceLine, if_neg (by decide), if_pos rfl]

theorem listing_edgeF (ts : Tick) :
    listing (.edgeF ts) = "EDGE.F".toList ++ ' ' :: Nat.toDigits 10 ts.toNat := by
  have hspace : "EDGE.F ".toList = "EDGE.F".toList ++ [' '] := by decide
  calc listing (.edgeF ts)
      = "EDGE.F ".toList ++ Nat.toDigits 10 ts.toNat := rfl
    _ = "EDGE.F".toList ++ ' ' :: Nat.toDigits 10 ts.toNat := by
      rw [hspace, List.append_assoc, List.singleton_append]

theorem listing_edgeR (ts : Tick) :
    listing (.edgeR ts) = "EDGE.R".toList ++ ' ' :: Nat.toDigits 10 ts.toNat := by
  have hspace : "EDGE.R ".toList = "EDGE.R".toList ++ [' '] := by decide
  calc listing (.edgeR ts)
      = "EDGE.R ".toList ++ Nat.toDigits 10 ts.toNat := rfl
    _ = "EDGE.R".toList ++ ' ' :: Nat.toDigits 10 ts.toNat := by
      rw [hspace, List.append_assoc, List.singleton_append]

/-- Settles O51: three closed lines, and the two `EDGE` lines by their timestamp. -/
theorem listingIsReadBack : Obligations.ListingIsReadBack := by
  intro i
  cases i with
  | nop => decide
  | edgeF ts =>
    rw [listing_edgeF, assembleLine_mnemonic_tick ts (by decide) (by simp) (sourceLine_edgeF _)
      (isTickNumber_toNat ts), expand, ofNat_toNat_tick]
  | edgeR ts =>
    rw [listing_edgeR, assembleLine_mnemonic_tick ts (by decide) (by simp) (sourceLine_edgeR _)
      (isTickNumber_toNat ts), expand, ofNat_toNat_tick]
  | clear => decide
  | poll => decide

end Sys2Proof.Machine
